-- ==== Sys2Proof/Word.lean ====
section
/-! DEFINITION. The word of the machine (00_scope R7, R10): 64 bits, bit 0 least significant. -/

namespace Sys2Proof

/-- A word: "a fixed-width (64-bit) unsigned integer storage unit" (00_scope R10, R19). -/
abbrev Word := BitVec 64

/-- A 32-bit command word (30_encoding R60). -/
abbrev CommandWord := BitVec 32

end Sys2Proof
end

