-- ==== Sys2Proof/Syntax.lean ====
section
/-! DEFINITION. The eight commands (30_encoding R66), one constructor per row of spec/opcode_table.json. A command
word has no operand field (R62, R64), so no constructor has an argument: every operand is in the operand
registers. -/

namespace Sys2Proof

/-- The commands, in the order of the opcode table. -/
inductive Instr where
  /-- `create(length)`, 40_allocator R80. -/
  | create
  /-- `compareTo(a, b)`, 44_comparator R145. -/
  | compare
  /-- `get(vector, offset, len)`, 41_range_codec R91. -/
  | get
  /-- `overwrite(vector, val, offset, len)`, 41_range_codec R96. -/
  | overwrite
  /-- `copy(src, srcOffset, dst, dstOffset, len)`, 42_bit_mover R111. -/
  | copy
  /-- `insert(vector, vectorLen, offset, len)`, 43_structural_editor R126. -/
  | insert
  /-- `remove(vector, vectorLen, offset, len)`, 43_structural_editor R131. -/
  | remove
  /-- `interleave(bitsPerVector, vectors)`, 45_interleaver R156. -/
  | interleave
  deriving DecidableEq, Repr

end Sys2Proof
end

