-- ==== Sys2Proof/Decode.lean ====
section
/-! DEFINITION. The decoder of command words (30_encoding R61, R66, R67, R75) and the encoder. -/

namespace Sys2Proof

/-- Why a command word is illegal (30_encoding R67). -/
inductive IllegalWord where
  /-- A bit among bits 31:8 is not zero, whatever the opcode field. -/
  | zeroFieldSet
  /-- Bits 31:8 are zero and the opcode is 0x00 or 0x09 to 0xFF. -/
  | unusedOpcode
  deriving DecidableEq, Repr

/-- One row of the opcode map: a word `w` selects it when `w & mask == pattern` (30_encoding R66). -/
structure OpcodeRow where
  instr   : Instr
  pattern : CommandWord
  mask    : CommandWord
  deriving DecidableEq, Repr

/-- The opcode map (30_encoding R66). -/
def opcodeMap : List OpcodeRow :=
  [ ⟨.create,     0x00000001#32, 0xFFFFFFFF#32⟩,
    ⟨.compare,    0x00000002#32, 0xFFFFFFFF#32⟩,
    ⟨.get,        0x00000003#32, 0xFFFFFFFF#32⟩,
    ⟨.overwrite,  0x00000004#32, 0xFFFFFFFF#32⟩,
    ⟨.copy,       0x00000005#32, 0xFFFFFFFF#32⟩,
    ⟨.insert,     0x00000006#32, 0xFFFFFFFF#32⟩,
    ⟨.remove,     0x00000007#32, 0xFFFFFFFF#32⟩,
    ⟨.interleave, 0x00000008#32, 0xFFFFFFFF#32⟩ ]

/-- The instruction of the first row that `w` selects (30_encoding R66). -/
def selectRow : List OpcodeRow → CommandWord → Option Instr
  | [], _ => none
  | row :: rows, w => if w &&& row.mask = row.pattern then some row.instr else selectRow rows w

/-- The fields of format C (30_encoding R61). -/
def opcodeField (w : CommandWord) : BitVec 8 := w.extractLsb' 0 8
def zeroField (w : CommandWord) : BitVec 24 := w.extractLsb' 8 24

/-- The decoder: total, one of the eight or illegal with the reason (30_encoding R67, R75). -/
def decode (w : CommandWord) : Except IllegalWord Instr :=
  match selectRow opcodeMap w with
  | some i => .ok i
  | none => if zeroField w = 0 then .error .unusedOpcode else .error .zeroFieldSet

/-- The opcodes 0x01 to 0x08 (30_encoding R66). -/
def opcode : Instr → BitVec 8
  | .create     => 0x01#8
  | .compare    => 0x02#8
  | .get        => 0x03#8
  | .overwrite  => 0x04#8
  | .copy       => 0x05#8
  | .insert     => 0x06#8
  | .remove     => 0x07#8
  | .interleave => 0x08#8

/-- The command word of an instruction: 24 zero bits above the opcode (30_encoding R61). -/
def encode (i : Instr) : CommandWord := 0#24 ++ opcode i

/-- What the decoder reads from an instruction of the opcode table whose bits are `w`. A command word is one
32-bit value (30_encoding R60, R63), so nothing is laid out in bytes (log 14). -/
def decodeTableWord (nbits w : Nat) : Option Instr :=
  if nbits ≤ 32 then
    match decode (BitVec.ofNat 32 (w % 2 ^ nbits)) with
    | .ok i => some i
    | .error _ => none
  else none

end Sys2Proof
end

