-- ==== Sys2Proof/Config.lean ====
section
/-! DEFINITION. The parameters of the hardware (00_scope R7, R8, R9) and the values the model itself fixes
(log 1, log 2). -/

namespace Sys2Proof.Config

/-- `WORD`: bits in a word (00_scope R7). -/
abbrev wordBits : Nat := 64

/-- `MAXLEN`: the longest range of one GET or OVERWRITE (00_scope R7). -/
abbrev maxLen : Nat := 64

/-- The smallest and the largest `AW` (00_scope R9). -/
abbrev minAw : Nat := 1
abbrev maxAw : Nat := 57

/-- `MEM_WORDS = 2^AW` (00_scope R9). -/
def memWords (aw : Nat) : Nat := 2 ^ aw

/-- DESIGN CHOICE (log 1, safe): the `AW` of `State.reset`, the largest the spec allows. -/
abbrev resetAw : Fin (maxAw + 1) := 57

/-- DESIGN CHOICE (log 2, unsafe): what a byte of `WMEM` that nothing has written reads as. The spec leaves
every word unspecified after reset (10_state R36). -/
abbrev unlistedByte : BitVec 8 := 0

end Sys2Proof.Config
end

