-- ==== Sys2Proof/Machine/State.lean ====
section
/-! DEFINITION. The state of the machine (10_state R20), the events that drive it (46_host_port R170, 70_reset
R210), and the reasons a step can stop. Plain data throughout. -/

namespace Sys2Proof.Machine

/-- The operand registers `A0` to `A7` by role name (10_state R21). -/
@[ext]
structure OperandRegs where
  /-- `A0`: source base, a word address. -/
  sb  : Word
  /-- `A1`: source words. -/
  sw  : Word
  /-- `A2`: destination base, a word address. -/
  db  : Word
  /-- `A3`: destination words. -/
  dw  : Word
  /-- `A4`: a bit offset. -/
  off : Word
  /-- `A5`: dstOffset, vectorLen or the vector count. -/
  aux : Word
  /-- `A6`: len, length or bitsPerVector. -/
  len : Word
  /-- `A7`: val of overwrite. -/
  val : Word
  deriving DecidableEq, Repr

/-- `WMEM` as cells in canonical form (see `Memory.wf`): addresses strictly rising, no cell that reads as an
unlisted one does. Byte `8 a + k` holds bits `8 k + 7 : 8 k` of the word at word address `a`; no operation of
the machine reads or writes less than a word, so the lanes cannot be observed (20_memory R44; log 3). -/
abbrev Memory := List Host.Cell

/-- What the host or the platform does next (46_host_port R170 to R175; 70_reset R210). -/
inductive Event where
  /-- `WR r, v`: write register number `r` (R171). -/
  | wr (reg : Nat) (value : Word)
  /-- `RD r`: read register number `r` (R172). -/
  | rd (reg : Nat)
  /-- `WRW a, v`: write the word at word address `a` (R173). -/
  | wrw (addr : Nat) (value : Word)
  /-- `RDW a`: read the word at word address `a` (R174). -/
  | rdw (addr : Nat)
  /-- `ISSUE w`: write the command word `w` to `CMD` (R175). -/
  | issue (word : CommandWord)
  /-- The reset event, with what `WMEM` holds after it: "the model takes the initial `WMEM` as an arbitrary
  input" (10_state R36, 70_reset R212; log 6). -/
  | reset (contents : List (Nat × Word))
  deriving DecidableEq, Repr

/-- The state: the tuple `(A0..A7, R0, STATUS, WMEM)` of 10_state R20, and three fields of the model's own. -/
@[ext]
structure State where
  /-- `A0` to `A7` (10_state R21). -/
  regs    : OperandRegs
  /-- `R0` (10_state R24). -/
  r0      : Word
  /-- `STATUS` (10_state R26): `ERR` in bits 3:0, `ESTICKY` in bit 4. -/
  status  : Word
  /-- `WMEM` (10_state R31). -/
  mem     : Memory
  /-- The model's own: the parameter `AW` (00_scope R9, 10_state R34), which no step writes (log 1). -/
  aw      : Fin (Config.maxAw + 1)
  /-- The model's own: what the host and the platform do next, first event first (10_state R34; log 4). -/
  pending : List Event
  /-- The model's own: what the event served last returned to the host, if it was a read (46_host_port R172,
  R174; log 5). -/
  reply   : Option Word
  deriving DecidableEq, Repr

/-- Why the machine stops with a fault: an unchecked precondition of the issued command is false, and the spec
gives the command no outcome: "A model must treat such a command as a fault" (60_exceptions R188; U1 to U6).
Every one is SAFE: the hardware would do something the model refuses to say (log 8). -/
inductive Fault where
  /-- U1: a GET or OVERWRITE range is not inside its array. Raised by GET, OVERWRITE. Safe. -/
  | rangeOutsideArray
  /-- U2: a COPY source or destination range is not inside its array. Raised by COPY. Safe. -/
  | copyRangeOutsideArray
  /-- U3: the arrays of COMPARE have different word counts. Raised by COMPARE. Safe. -/
  | shapeMismatch
  /-- U4: an INSERT beyond the vector, or a REMOVE range that reaches beyond it. Raised by INSERT, REMOVE. Safe. -/
  | spliceOutsideVector
  /-- U5: the declared word count does not match the vector's logical length (INSERT, REMOVE) or the source
  block does not hold all vectors (INTERLEAVE). Safe. -/
  | declaredExtentMismatch
  /-- U6: the new array does not fit in `WMEM`. Raised by CREATE, INSERT, REMOVE, INTERLEAVE. Safe. -/
  | newArrayOutsideMemory
  /-- U6: the new array shares a word with the source. Raised by INSERT, REMOVE, INTERLEAVE. Safe. -/
  | newArrayOverlapsSource
  /-- U1, U2, U3 and R189: the array `(SB, SW)` is not inside `WMEM`. Raised by every command that reads it. Safe. -/
  | sourceOutsideMemory
  /-- U1, U2, U3 and R189: the array `(DB, DW)` is not inside `WMEM`. Raised by COMPARE, OVERWRITE, COPY. Safe. -/
  | destinationOutsideMemory
  deriving DecidableEq, Repr

/-- Why a step has no meaning. -/
inductive Refusal where
  /-- An instruction with no meaning in the model. No arm of exec raises it: every instruction has its meaning. Safe. -/
  | notModelled (mnemonic : String)
  /-- A WR or RD of a register number above 10, which does not exist (10_state R25; U12: "refuse: no move").
  Raised by the host port. Safe (log 10). -/
  | noSuchRegister (reg : Nat)
  /-- A WRW or RDW of a word address at or above `MEM_WORDS` (46_host_port R173, R174; U12: "refuse: no move").
  Raised by the host port. Safe (log 10). -/
  | noSuchWord (addr : Nat)
  deriving DecidableEq, Repr

/-- What a step, a command or a host transaction answers. -/
abbrev Result := Host.Outcome State Fault Refusal

/-- The operand registers after reset: all 0 (10_state R36). -/
def OperandRegs.zero : OperandRegs := ⟨0, 0, 0, 0, 0, 0, 0, 0⟩

/-- The machine right after reset (10_state R36): `A0..A7 = 0`, `R0 = 0`, `STATUS = 0`. `WMEM` lists nothing
(log 2), `AW` is `Config.resetAw` (log 1), nothing is pending (log 7) and no read has been answered. -/
def State.reset : State :=
  { regs := OperandRegs.zero, r0 := 0, status := 0, mem := [], aw := Config.resetAw, pending := [], reply := none }

end Sys2Proof.Machine
end

