-- ==== Sys2Proof/Machine/Flags.lean ====
section
/-! DEFINITION. The fields of `STATUS` (10_state R26) and the codes of the two conditions (60_exceptions R185). -/

namespace Sys2Proof.Machine

/-- The conditions a command can raise (60_exceptions R185). -/
inductive Condition where
  /-- GET or OVERWRITE with `LEN > 64` (R186). -/
  | invalidRangeLength
  /-- A command word that is not one of the eight (R187). -/
  | illegalCommand
  deriving DecidableEq, Repr

/-- The code of a condition in `STATUS.ERR` (60_exceptions R185). -/
def conditionCode : Condition → BitVec 4
  | .invalidRangeLength => 1
  | .illegalCommand => 2

/-- The code `OK` (60_exceptions R185). -/
def okCode : BitVec 4 := 0

/-- `STATUS` bits 3:0 and bit 4 as masks (10_state R26). -/
def errMask : Word := 0xF
def stickyMask : Word := 0x10

/-- `STATUS.ERR`, bits 3:0. -/
def statusErr (st : Word) : BitVec 4 := st.extractLsb' 0 4

/-- `STATUS.ESTICKY`, bit 4. -/
def statusSticky (st : Word) : Bool := st.getLsbD 4

/-- `STATUS.ERR <- c`. -/
def setErr (st : Word) (c : BitVec 4) : Word := (st &&& ~~~errMask) ||| c.setWidth 64

/-- `STATUS.ESTICKY <- 1`. -/
def setSticky (st : Word) : Word := st ||| stickyMask

/-- `STATUS.ESTICKY <- 0`. -/
def clearSticky (st : Word) : Word := st &&& ~~~stickyMask

/-- What a host write of `v` makes of `STATUS`: bit 4 is write-one-to-clear, the other bits ignore writes
(46_host_port R171). -/
def hostStatusWrite (st v : Word) : Word := if v.getLsbD 4 then clearSticky st else st

/-- What a read of `STATUS` returns: bits 63:5 read as 0 (10_state R26, 46_host_port R172). -/
def statusRead (st : Word) : Word := st &&& (errMask ||| stickyMask)

/-- `STATUS.ERR` and `STATUS.ESTICKY` of a state. -/
def State.err (s : State) : BitVec 4 := statusErr s.status
def State.esticky (s : State) : Bool := statusSticky s.status

end Sys2Proof.Machine
end

