-- ==== Sys2Proof/Machine/Bits.lean ====
section
/-! DEFINITION. The word primitives and the bit-address arithmetic every command uses (00_scope R11 to R14,
20_memory R46). -/

namespace Sys2Proof.Machine

/-- `lsr(w, s) = floor(w / 2^s)`, used for `0 ≤ s ≤ 63` only (00_scope R12; log 9). -/
def lsr (w : Word) (s : Nat) : Word := w >>> s

/-- `lsl(w, s) = (w × 2^s) mod 2^64`, used for `0 ≤ s ≤ 63` only (00_scope R12; log 9). -/
def lsl (w : Word) (s : Nat) : Word := w <<< s

/-- `maskBelow(n) = 2^n − 1`, used for `0 ≤ n ≤ 64` only (00_scope R13; log 9). -/
def maskBelow (n : Nat) : Word := BitVec.ofNat Config.wordBits (2 ^ n - 1)

/-- `sext_64` of an exact integer: its 64-bit two's complement (00_scope R11, 44_comparator R146). -/
def sext64 (v : Int) : Word := BitVec.ofInt Config.wordBits v

/-- `WORDS(n)`: 0 at 0, else `((n − 1) >> 6) + 1` (00_scope R14). -/
def wordsFor (n : Nat) : Nat := if n = 0 then 0 else (n - 1) / 64 + 1

/-- `idx = o >> 6`, the index of the word that holds bit offset `o` (20_memory R46). -/
def wordIdx (o : Nat) : Nat := o / 64

/-- `o & 63`, the bit of that word (20_memory R46). -/
def bitIdx (o : Nat) : Nat := o % 64

/-- Byte `k` of a word, bits `8 k + 7 : 8 k` (log 3). -/
def byteOf (w : Word) (k : Nat) : BitVec 8 := w.extractLsb' (8 * k) 8

/-- The word whose bytes 0 to 7 are given, byte 0 least significant (log 3). -/
def wordOfBytes (b0 b1 b2 b3 b4 b5 b6 b7 : BitVec 8) : Word :=
  b7 ++ b6 ++ b5 ++ b4 ++ b3 ++ b2 ++ b1 ++ b0

end Sys2Proof.Machine
end

