-- ==== Sys2Proof/Machine/Operands.lean ====
section
/-! DEFINITION. The operands of a command: operand registers by role, read as unsigned naturals (10_state R21,
R23; 30_encoding R65), the registers by number (10_state R25), and the split of a bit range (41_range_codec
R90). -/

namespace Sys2Proof.Machine

/-- Operand register `Ai`, `0 ≤ i ≤ 7`, under its number (10_state R21, R25). -/
def OperandRegs.read? (r : OperandRegs) : Nat → Option Word
  | 0 => some r.sb
  | 1 => some r.sw
  | 2 => some r.db
  | 3 => some r.dw
  | 4 => some r.off
  | 5 => some r.aux
  | 6 => some r.len
  | 7 => some r.val
  | _ => none

/-- `x[i] <- v` for `0 ≤ i ≤ 7`; no other number is an operand register (46_host_port R171). -/
def OperandRegs.write? (r : OperandRegs) (i : Nat) (v : Word) : Option OperandRegs :=
  match i with
  | 0 => some { r with sb := v }
  | 1 => some { r with sw := v }
  | 2 => some { r with db := v }
  | 3 => some { r with dw := v }
  | 4 => some { r with off := v }
  | 5 => some { r with aux := v }
  | 6 => some { r with len := v }
  | 7 => some { r with val := v }
  | _ => none

/-- `SB = x[0]` as a natural (00_scope R16). -/
def State.sbN (s : State) : Nat := s.regs.sb.toNat
/-- `SW = x[1]`. -/
def State.swN (s : State) : Nat := s.regs.sw.toNat
/-- `DB = x[2]`. -/
def State.dbN (s : State) : Nat := s.regs.db.toNat
/-- `DW = x[3]`. -/
def State.dwN (s : State) : Nat := s.regs.dw.toNat
/-- `OFF = x[4]`. -/
def State.offN (s : State) : Nat := s.regs.off.toNat
/-- `AUX = x[5]`. -/
def State.auxN (s : State) : Nat := s.regs.aux.toNat
/-- `LEN = x[6]`. -/
def State.lenN (s : State) : Nat := s.regs.len.toNat

/-- `MEM_WORDS` of this instance of the hardware (00_scope R9). -/
def State.memWords (s : State) : Nat := Config.memWords s.aw.val

/-- `t = min(LEN, 64 − bitIdx)`: how many bits of the range `(off, len)` lie in its first word (41_range_codec
R90). -/
def lowPart (off len : Nat) : Nat := min len (64 - bitIdx off)

/-- The array `(base, words)` is inside `WMEM` (10_state R32). -/
def arrayFits (s : State) (base words : Nat) : Bool := base + words ≤ s.memWords

/-- The range `(off, len)`, `len ≤ 64`, lies in an array of `words` words: its first word does, and its second
word too when it straddles (41_range_codec R91, R96). -/
def rangeFits (off len words : Nat) : Bool :=
  wordIdx off < words && (len ≤ lowPart off len || wordIdx off + 1 < words)

/-- The word ranges `[a, a + n)` and `[b, b + m)` share no word (43_structural_editor R125). -/
def shareNoWord (a n b m : Nat) : Bool := n == 0 || m == 0 || a + n ≤ b || b + m ≤ a

end Sys2Proof.Machine
end

