-- ==== Sys2Proof/Machine/Ops.lean ====
section
/-! DEFINITION. The named operations over memory and registers: cells, words, loops, the way a command ends
(completion, taking an exception, a false precondition), register access by number, reset. -/

namespace Sys2Proof.Machine

/-! ## Cells -/

/-- What the cell at byte address `b` holds. -/
def Memory.readByte : Memory → Nat → BitVec 8
  | [], _ => Config.unlistedByte
  | (k, v) :: m, b => if k = b then v else Memory.readByte m b

/-- The cells without the one at `b`. -/
def Memory.eraseByte (b : Nat) : Memory → Memory
  | [] => []
  | (k, v) :: m => if k = b then Memory.eraseByte b m else (k, v) :: Memory.eraseByte b m

/-- A new cell at its place in the rising order. -/
def Memory.insertByte (b : Nat) (v : BitVec 8) : Memory → Memory
  | [] => [(b, v)]
  | (k, u) :: m => if b < k then (b, v) :: (k, u) :: m else (k, u) :: Memory.insertByte b v m

/-- Cell `b` replaced by `v`; a value an unlisted cell reads as is not listed. -/
def Memory.writeByte (m : Memory) (b : Nat) (v : BitVec 8) : Memory :=
  if v = Config.unlistedByte then Memory.eraseByte b m
  else Memory.insertByte b v (Memory.eraseByte b m)

/-- Addresses strictly rising from `lo` on, and no cell that reads as an unlisted one. -/
def Memory.wfFrom (lo : Nat) : Memory → Bool
  | [] => true
  | (k, v) :: m => lo ≤ k && v != Config.unlistedByte && Memory.wfFrom (k + 1) m

/-- The canonical form of memory. -/
def Memory.wf (m : Memory) : Bool := Memory.wfFrom 0 m

/-- Every listed cell belongs to a word of `WMEM` (10_state R31). -/
def Memory.within (memWords : Nat) (m : Memory) : Bool := m.all (fun c => c.1 < 8 * memWords)

/-! ## Words (00_scope R15) -/

/-- `MemRead(a, 64)`. -/
def Memory.readWord (m : Memory) (a : Nat) : Word :=
  wordOfBytes (m.readByte (8 * a)) (m.readByte (8 * a + 1)) (m.readByte (8 * a + 2)) (m.readByte (8 * a + 3))
    (m.readByte (8 * a + 4)) (m.readByte (8 * a + 5)) (m.readByte (8 * a + 6)) (m.readByte (8 * a + 7))

/-- `MemWrite(a, 64, v)`. -/
def Memory.writeWord (m : Memory) (a : Nat) (v : Word) : Memory :=
  ((((((((m.writeByte (8 * a) (byteOf v 0)).writeByte (8 * a + 1) (byteOf v 1)).writeByte (8 * a + 2)
    (byteOf v 2)).writeByte (8 * a + 3) (byteOf v 3)).writeByte (8 * a + 4) (byteOf v 4)).writeByte (8 * a + 5)
    (byteOf v 5)).writeByte (8 * a + 6) (byteOf v 6)).writeByte (8 * a + 7) (byteOf v 7))

/-! ## Loops -/

/-- `for k = 0 .. n-1 ascending`. -/
def forUp {σ : Type} : Nat → (Nat → σ → σ) → σ → σ
  | 0, _, x => x
  | n + 1, f, x => f n (forUp n f x)

/-- `for k = n-1 downto 0`. -/
def forDown {σ : Type} : Nat → (Nat → σ → σ) → σ → σ
  | 0, _, x => x
  | n + 1, f, x => forDown n f (f n x)

/-- The allocation step of CREATE, INSERT, REMOVE and INTERLEAVE: words `base .. base + n - 1` become 0
(40_allocator R80, R83). -/
def zeroFill (m : Memory) (base n : Nat) : Memory := forUp n (fun k acc => acc.writeWord (base + k) 0) m

/-- Step 2 of the structural editor: word `k` of the source to word `k` of the new array, `0 ≤ k < n`
(43_structural_editor R125). -/
def bulkCopy (m : Memory) (src dst n : Nat) : Memory :=
  forUp n (fun k acc => acc.writeWord (dst + k) (acc.readWord (src + k))) m

/-- `W[a] <- or(W[a], v)`, one read-modify-write (20_memory R47). -/
def orWord (m : Memory) (a : Nat) (v : Word) : Memory := m.writeWord a (m.readWord a ||| v)

/-! ## How a command ends -/

/-- Field updates of the state. -/
def State.setMem (s : State) (m : Memory) : State := { s with mem := m }
def State.setR0 (s : State) (v : Word) : State := { s with r0 := v }
def State.setStatus (s : State) (st : Word) : State := { s with status := st }
def State.setRegs (s : State) (r : OperandRegs) : State := { s with regs := r }
def State.setReply (s : State) (v : Option Word) : State := { s with reply := v }
def State.setPending (s : State) (es : List Event) : State := { s with pending := es }

/-- A command completes: `STATUS.ERR <- 0`, `ESTICKY` as it was (10_state R27). -/
def State.complete (s : State) : State := s.setStatus (setErr s.status okCode)

/-- TAKING AN EXCEPTION (60_exceptions R193): `STATUS.ERR <-` the code, `STATUS.ESTICKY <- 1`; `R0`, the operand
registers and `WMEM` unchanged; control goes nowhere, there being no program counter and no handler. There is no
return from it either (R194): the next command runs as usual, and the host clears `ESTICKY` by writing `STATUS`
(`State.hostWriteStatus`). -/
def State.raise (s : State) (c : Condition) : State :=
  s.setStatus (setSticky (setErr s.status (conditionCode c)))

/-- A host write to `STATUS`, the one way besides reset that `ESTICKY` is cleared (46_host_port R171). -/
def State.hostWriteStatus (s : State) (v : Word) : State := s.setStatus (hostStatusWrite s.status v)

/-- The unchecked preconditions of a command, each with the fault that stands for its violation: the first false
one is the fault, and only when all hold does the command have its effect (60_exceptions R188; log 8). -/
def requireAll : List (Fault × Bool) → Result → Result
  | [], r => r
  | (f, ok) :: rest, r => if ok then requireAll rest r else .fault f

/-! ## Registers by number (10_state R25) -/

/-- `RD r`: the value of register number `r`, if there is one (46_host_port R172). -/
def State.readReg? (s : State) (r : Nat) : Option Word :=
  match r with
  | 8 => some s.r0
  | 9 => some (statusRead s.status)
  | 10 => some 0
  | r => s.regs.read? r

/-! ## Reset (10_state R36, 70_reset R210, R212) -/

/-- `WMEM` with the given words and nothing else listed. A later entry for the same word wins. -/
def contentsMem (contents : List (Nat × Word)) : Memory :=
  contents.foldl (fun m c => m.writeWord c.1 c.2) []

/-- The reset event: the registers of `State.reset`, and `WMEM` whatever the event says it holds. `AW` is fixed
for the hardware (10_state R34), and what the host does next is not the core's. -/
def State.afterReset (s : State) (contents : List (Nat × Word)) : State :=
  { State.reset with mem := contentsMem contents, aw := s.aw, pending := s.pending }

end Sys2Proof.Machine
end

