-- ==== Sys2Proof/Machine/Allocator.lean ====
section
/-! DEFINITION. The capacity allocator: CREATE (40_allocator). -/

namespace Sys2Proof.Machine

/-- CREATE (40_allocator R80): `nw = WORDS(LEN)` words from `DB` become 0, `R0 <- nw`. -/
def execCreate (s : State) : Result :=
  requireAll [(.newArrayOutsideMemory, arrayFits s s.dbN (wordsFor s.lenN))]
    (.next (((s.setMem (zeroFill s.mem s.dbN (wordsFor s.lenN))).setR0
      (BitVec.ofNat 64 (wordsFor s.lenN))).complete))

end Sys2Proof.Machine
end

