-- ==== Sys2Proof/Machine/BitMover.lean ====
section
/-! DEFINITION. The bit-mover: COPY and the chunk loop it shares with the structural editor (42_bit_mover). -/

namespace Sys2Proof.Machine

/-- `chunk = min(64 − (s & 63), 64 − (d & 63))`, never shortened to the bits that remain (42_bit_mover R111,
R113). -/
def chunkLen (s d : Nat) : Nat := min (64 - bitIdx s) (64 - bitIdx d)

/-- One iteration of the loop: read the source word, OR the chunk into the destination word (42_bit_mover
R111). -/
def copyChunk (m : Memory) (sbase s dbase d : Nat) : Memory :=
  let piece := lsr (m.readWord (sbase + wordIdx s)) (bitIdx s) &&& maskBelow (chunkLen s d)
  orWord m (dbase + wordIdx d) (lsl piece (bitIdx d))

/-- `while s < limit` of 42_bit_mover R111, the COPYLOOP of 43_structural_editor. Each iteration raises `s` by at
least 1 (R111), so `limit − s` iterations are always enough (log 13). -/
def copyLoop : Nat → Nat → Nat → Nat → Nat → Nat → Memory → Memory
  | 0, _, _, _, _, _, m => m
  | fuel + 1, sbase, s, dbase, d, limit, m =>
    if s < limit then
      copyLoop fuel sbase (s + chunkLen s d) dbase (d + chunkLen s d) limit (copyChunk m sbase s dbase d)
    else m

/-- `COPYLOOP(sbase, s, dbase, d, limit)` with its bound (43_structural_editor, before R125). -/
def copyBits (m : Memory) (sbase s dbase d limit : Nat) : Memory := copyLoop (limit - s) sbase s dbase d limit m

/-- COPY (42_bit_mover R111): ORs source bits from `OFF` up into destination bits from `AUX` up until at least
`LEN` are moved. With `LEN = 0` no precondition is looked at and nothing is accessed. -/
def execCopy (s : State) : Result :=
  let vacuous := s.lenN == 0
  requireAll
    [(.sourceOutsideMemory, vacuous || arrayFits s s.sbN s.swN),
     (.destinationOutsideMemory, vacuous || arrayFits s s.dbN s.dwN),
     (.copyRangeOutsideArray, vacuous || s.offN + s.lenN ≤ 64 * s.swN),
     (.copyRangeOutsideArray, vacuous || s.auxN + s.lenN ≤ 64 * s.dwN)]
    (.next ((s.setMem (copyBits s.mem s.sbN s.offN s.dbN s.auxN (s.offN + s.lenN))).complete))

end Sys2Proof.Machine
end

