-- ==== Sys2Proof/Machine/Comparator.lean ====
section
/-! DEFINITION. The comparator: COMPARE (44_comparator). -/

namespace Sys2Proof.Machine

/-- The order of two words read as unsigned integers (44_comparator R145, 90_conflicts C2). -/
def wordOrder (wa wb : Word) : Int := if wa = wb then 0 else if wa.toNat < wb.toNat then -1 else 1

/-- The loop of 44_comparator R145 from index `i`, `n` words to go: the order of the first pair of words that
differ; later words are not looked at. -/
def compareLoop (m : Memory) (a b : Nat) : Nat → Nat → Int
  | 0, _ => 0
  | n + 1, i =>
    let wa := m.readWord (a + i)
    let wb := m.readWord (b + i)
    if wa = wb then compareLoop m a b n (i + 1) else wordOrder wa wb

/-- COMPARE (44_comparator R145, R146): `R0 <- sext_64` of −1, 0 or +1; `WMEM` is never written. -/
def execCompare (s : State) : Result :=
  requireAll
    [(.shapeMismatch, s.swN == s.dwN), (.sourceOutsideMemory, arrayFits s s.sbN s.swN),
     (.destinationOutsideMemory, arrayFits s s.dbN s.dwN)]
    (.next ((s.setR0 (sext64 (compareLoop s.mem s.sbN s.dbN s.swN 0))).complete))

end Sys2Proof.Machine
end

