-- ==== Sys2Proof/Machine/Interleaver.lean ====
section
/-! DEFINITION. The interleaver: INTERLEAVE (45_interleaver). -/

namespace Sys2Proof.Machine

/-- Bit `i` of source vector `j` as a word of value 0 or 1: LSB-first in the `stride` words of the vector
(45_interleaver R155). -/
def sourceBit (m : Memory) (sbase stride i j : Nat) : Word :=
  lsr (m.readWord (sbase + j * stride + wordIdx i)) (bitIdx i) &&& 1

/-- One emission: the bit is OR-ed in at cursor `c`, conventional bit `63 − (c & 63)` of word `c >> 6`, and the
cursor moves down (45_interleaver R156, 90_conflicts C3). After the last emission the cursor is not used; where
the rule's is −1 this one stays 0 (log 12). -/
def emitBit (sbase dbase stride i j : Nat) (st : Memory × Nat) : Memory × Nat :=
  let (m, c) := st
  (orWord m (dbase + wordIdx c) (lsl (sourceBit m sbase stride i j) (63 - bitIdx c)), c - 1)

/-- The double loop of 45_interleaver R156 over the zero-filled array: least-significant source bit first, last
vector first, the cursor from the top of the capacity down. -/
def interleaveBits (m : Memory) (sbase dbase bits count : Nat) : Memory :=
  let nw := wordsFor (bits * count)
  let start := (zeroFill m dbase nw, 64 * nw - 1)
  (forUp bits (fun i st => forDown count (fun j st => emitBit sbase dbase (wordsFor bits) i j st) st) start).1

/-- INTERLEAVE (45_interleaver R156) with `B = LEN` and `K = AUX`; `R0 <- WORDS(B × K)`. -/
def execInterleave (s : State) : Result :=
  let nw := wordsFor (s.lenN * s.auxN)
  requireAll
    [(.declaredExtentMismatch, s.auxN * wordsFor s.lenN ≤ s.swN),
     (.sourceOutsideMemory, arrayFits s s.sbN s.swN),
     (.newArrayOutsideMemory, arrayFits s s.dbN nw),
     (.newArrayOverlapsSource, shareNoWord s.sbN s.swN s.dbN nw)]
    (.next (((s.setMem (interleaveBits s.mem s.sbN s.dbN s.lenN s.auxN)).setR0 (BitVec.ofNat 64 nw)).complete))

end Sys2Proof.Machine
end

