-- ==== Sys2Proof/Machine/RangeCodec.lean ====
section
/-! DEFINITION. The range codec: GET and OVERWRITE (41_range_codec). -/

namespace Sys2Proof.Machine

/-- The value GET reads: `len` bits at bit offset `off` of the array at `base` (41_range_codec R91). -/
def getRange (m : Memory) (base off len : Nat) : Word :=
  let t := lowPart off len
  let w0 := m.readWord (base + wordIdx off)
  let low := lsr w0 (bitIdx off) &&& maskBelow t
  if len > t then
    let w1 := m.readWord (base + wordIdx off + 1)
    low ||| lsl (w1 &&& maskBelow (len - t)) t
  else low

/-- Word `idx` after OVERWRITE: `t` bits at `bitIdx` cleared, then the low `t` bits of `val` put there
(41_range_codec R96). -/
def overwriteLow (w0 val : Word) (off len : Nat) : Word :=
  let t := lowPart off len
  (w0 &&& ~~~(lsl (maskBelow t) (bitIdx off))) ||| lsl (val &&& maskBelow t) (bitIdx off)

/-- Word `idx + 1` after a straddling OVERWRITE: its low `r = len − t` bits replaced by the next `r` bits of
`val` (41_range_codec R96). -/
def overwriteHigh (w1 val : Word) (off len : Nat) : Word :=
  let t := lowPart off len
  let r := len - t
  (w1 &&& ~~~(maskBelow r)) ||| (lsr val t &&& maskBelow r)

/-- `WMEM` after OVERWRITE of the range `(off, len)` of the array at `base` (41_range_codec R96). -/
def overwriteRange (m : Memory) (base off len : Nat) (val : Word) : Memory :=
  let a := base + wordIdx off
  let m1 := m.writeWord a (overwriteLow (m.readWord a) val off len)
  if len > lowPart off len then m1.writeWord (a + 1) (overwriteHigh (m1.readWord (a + 1)) val off len) else m1

/-- GET (41_range_codec R91): `LEN > 64` raises InvalidRangeLength before anything else (60_exceptions R186). -/
def execGet (s : State) : Result :=
  if s.lenN > Config.maxLen then .next (s.raise .invalidRangeLength)
  else
    requireAll
      [(.sourceOutsideMemory, arrayFits s s.sbN s.swN), (.rangeOutsideArray, rangeFits s.offN s.lenN s.swN)]
      (.next ((s.setR0 (getRange s.mem s.sbN s.offN s.lenN)).complete))

/-- OVERWRITE (41_range_codec R96): `LEN > 64` raises InvalidRangeLength with no partial mutation; `R0` is never
written. -/
def execOverwrite (s : State) : Result :=
  if s.lenN > Config.maxLen then .next (s.raise .invalidRangeLength)
  else
    requireAll
      [(.destinationOutsideMemory, arrayFits s s.dbN s.dwN), (.rangeOutsideArray, rangeFits s.offN s.lenN s.dwN)]
      (.next ((s.setMem (overwriteRange s.mem s.dbN s.offN s.lenN s.regs.val)).complete))

end Sys2Proof.Machine
end

