-- ==== Sys2Proof/Machine/StructuralEditor.lean ====
section
/-! DEFINITION. The structural editor: INSERT and REMOVE (43_structural_editor). -/

namespace Sys2Proof.Machine

/-- Step 3: OR the source boundary word's low `off & 63` bits into the new boundary word; no access at all when
there are none (43_structural_editor R125, D14). -/
def keepBoundary (m : Memory) (sbase dbase off : Nat) : Memory :=
  if bitIdx off = 0 then m
  else orWord m (dbase + wordIdx off) (m.readWord (sbase + wordIdx off) &&& maskBelow (bitIdx off))

/-- Steps 1 to 3: allocate `nw` zero words at `dbase`, bulk-copy the whole words below the boundary word, keep
the boundary word's low bits (43_structural_editor R125). -/
def spliceHead (m : Memory) (sbase dbase off nw : Nat) : Memory :=
  keepBoundary (bulkCopy (zeroFill m dbase nw) sbase dbase (wordIdx off)) sbase dbase off

/-- The whole splice: steps 1 to 3, then the relay of source bits `from` to `limit` to destination bits from
`to_` up (43_structural_editor R125). -/
def splice (m : Memory) (sbase dbase off nw src dst limit : Nat) : Memory :=
  copyBits (spliceHead m sbase dbase off nw) sbase src dbase dst limit

/-- The preconditions INSERT and REMOVE share, for a new array of `nw` words (43_structural_editor R125). -/
def spliceChecks (s : State) (nw : Nat) : List (Fault × Bool) :=
  [(.sourceOutsideMemory, arrayFits s s.sbN s.swN),
   (.newArrayOutsideMemory, arrayFits s s.dbN nw),
   (.newArrayOverlapsSource, shareNoWord s.sbN s.swN s.dbN nw)]

/-- INSERT (43_structural_editor R126): a new array at `DB` of logical length `AUX + LEN`, `LEN` zero bits spliced
in at `OFF`; `R0 <- nw`. -/
def execInsert (s : State) : Result :=
  let nw := wordsFor (s.auxN + s.lenN)
  requireAll
    ((.declaredExtentMismatch, s.swN == wordsFor s.auxN) :: (.spliceOutsideVector, s.offN ≤ s.auxN) ::
      spliceChecks s nw)
    (.next (((s.setMem (splice s.mem s.sbN s.dbN s.offN nw s.offN (s.offN + s.lenN) s.auxN)).setR0
      (BitVec.ofNat 64 nw)).complete))

/-- REMOVE (43_structural_editor R131): a new array at `DB` of logical length `AUX − LEN`, the bits
`[OFF, OFF + LEN)` cut out; `R0 <- nw`. -/
def execRemove (s : State) : Result :=
  let nw := wordsFor (s.auxN - s.lenN)
  requireAll
    ((.declaredExtentMismatch, s.swN == wordsFor s.auxN) :: (.spliceOutsideVector, s.offN + s.lenN ≤ s.auxN) ::
      spliceChecks s nw)
    (.next (((s.setMem (splice s.mem s.sbN s.dbN s.offN nw (s.offN + s.lenN) s.offN s.auxN)).setR0
      (BitVec.ofNat 64 nw)).complete))

end Sys2Proof.Machine
end

