-- ==== Sys2Proof/Machine/Dispatch.lean ====
section
/-! DEFINITION. The meaning of every command (30_encoding R66), one arm per constructor. -/

namespace Sys2Proof.Machine

def exec (i : Instr) (s : State) : Host.Outcome State Fault Refusal :=
  match i with
  | .create => Sys2Proof.Machine.execCreate s
  | .compare => Sys2Proof.Machine.execCompare s
  | .get => Sys2Proof.Machine.execGet s
  | .overwrite => Sys2Proof.Machine.execOverwrite s
  | .copy => Sys2Proof.Machine.execCopy s
  | .insert => Sys2Proof.Machine.execInsert s
  | .remove => Sys2Proof.Machine.execRemove s
  | .interleave => Sys2Proof.Machine.execInterleave s

end Sys2Proof.Machine
end

