-- ==== Sys2Proof/Machine/HostPort.lean ====
section
/-! DEFINITION. The host port: what each event does (46_host_port R170 to R175, 70_reset R210). -/

namespace Sys2Proof.Machine

/-- `ISSUE w` (46_host_port R175): an illegal word raises IllegalCommand before any register is read
(60_exceptions R187, R191); a legal one runs its command to completion. -/
def issue (w : CommandWord) (s : State) : Result :=
  match decode w with
  | .error _ => .next (s.raise .illegalCommand)
  | .ok i => exec i s

/-- `WR r, v` (46_host_port R171): `A0..A7` written; `R0` ignored; `STATUS` bit 4 write-one-to-clear; `CMD` issues
the low 32 bits of `v`; no other register exists (log 10). -/
def hostWrite (r : Nat) (v : Word) (s : State) : Result :=
  match r with
  | 8 => .next s
  | 9 => .next (s.hostWriteStatus v)
  | 10 => issue (v.setWidth 32) s
  | r =>
    match s.regs.write? r v with
    | some regs => .next (s.setRegs regs)
    | none => .refused (.noSuchRegister r)

/-- `RD r` (46_host_port R172): the value is returned and nothing changes (log 5). -/
def hostRead (r : Nat) (s : State) : Result :=
  match s.readReg? r with
  | some v => .next (s.setReply (some v))
  | none => .refused (.noSuchRegister r)

/-- `WRW a, v` (46_host_port R173). -/
def hostWriteWord (a : Nat) (v : Word) (s : State) : Result :=
  if a < s.memWords then .next (s.setMem (s.mem.writeWord a v)) else .refused (.noSuchWord a)

/-- `RDW a` (46_host_port R174). -/
def hostReadWord (a : Nat) (s : State) : Result :=
  if a < s.memWords then .next (s.setReply (some (s.mem.readWord a))) else .refused (.noSuchWord a)

/-- The reset event (70_reset R210, R212); contents for a word that does not exist describe no reset (log 6). -/
def platformReset (contents : List (Nat × Word)) (s : State) : Result :=
  match contents.find? (fun c => !decide (c.1 < s.memWords)) with
  | some c => .refused (.noSuchWord c.1)
  | none => .next (s.afterReset contents)

/-- What one event does. -/
def serve (e : Event) (s : State) : Result :=
  match e with
  | .wr r v => hostWrite r v s
  | .rd r => hostRead r s
  | .wrw a v => hostWriteWord a v s
  | .rdw a => hostReadWord a s
  | .issue w => issue w s
  | .reset contents => platformReset contents s

/-- Serve the first pending event; with none the core is idle and nothing changes (46_host_port R170, 70_reset
R211; log 4). The answer of the event before is gone (log 5). -/
def serveNext (s : State) : Result :=
  match s.pending with
  | [] => .next s
  | e :: rest => serve e ((s.setPending rest).setReply none)

/-- The state in which the host's next transaction issues the command word whose bits are `w`, the bits above
`nbits` zero (log 7, log 14). -/
def State.withCommandNext (s : State) (nbits w : Nat) : State :=
  s.setPending (.issue (BitVec.ofNat 32 (w % 2 ^ min nbits 32)) :: s.pending)

end Sys2Proof.Machine
end

