-- ==== Sys2Proof/Machine/Step.lean ====
section
/-! DEFINITION. One step of the machine: one event of the host or the platform (46_host_port R170). -/

namespace Sys2Proof.Machine

/-- One step. -/
def step (s : State) : Host.Outcome State Fault Refusal := serveNext s

/-- `s` with the instruction whose bits are `w` as the very next thing the host issues. There is no program
counter and no fetch (10_state R30): a command comes from the host port (log 7). -/
def State.withFetchWord (s : State) (nbits w : Nat) : State := s.withCommandNext nbits w

end Sys2Proof.Machine
end

