-- ==== Sys2Proof/Machine/HostLines.lean ====
section
/-! DEFINITION. The host's line form (30_encoding R69 to R73): lines and their events, pseudo-commands and their
expansions, the reading of a line of text, disassembly and trace. -/

namespace Sys2Proof.Machine

/-- One line of host activity (30_encoding R69). Values are naturals as written; whether they fit their target
is `lineFits`. -/
inductive HostLine where
  /-- `WR <reg>, <value>`. -/
  | wr (reg value : Nat)
  /-- `RD <reg>`. -/
  | rd (reg : Nat)
  /-- `WRW <addr>, <value>`. -/
  | wrw (addr value : Nat)
  /-- `RDW <addr>`. -/
  | rdw (addr : Nat)
  /-- `ISSUE <mnemonic>`. -/
  | issue (i : Instr)
  /-- `ISSUE.W <value>`. -/
  | issueW (value : Nat)
  deriving DecidableEq, Repr

/-- The value "must fit the target (64 bits for a register or a word, 32 bits for `ISSUE.W`, `AW` bits for
`<addr>`)" (30_encoding R70), and the register must exist (10_state R25). -/
def lineFits (aw : Nat) : HostLine → Bool
  | .wr r v => r ≤ 10 && v < 2 ^ 64
  | .rd r => r ≤ 10
  | .wrw a v => a < 2 ^ aw && v < 2 ^ 64
  | .rdw a => a < 2 ^ aw
  | .issue _ => true
  | .issueW v => v < 2 ^ 32

/-- The transaction a line stands for (30_encoding R69, R72). "A value is taken modulo nothing" (R70): a line whose
value does not fit its target stands for none (93_implementation_defined U12). -/
def lineEvent (aw : Nat) (l : HostLine) : Option Event :=
  if lineFits aw l then
    match l with
    | .wr r v => some (.wr r (BitVec.ofNat 64 v))
    | .rd r => some (.rd r)
    | .wrw a v => some (.wrw a (BitVec.ofNat 64 v))
    | .rdw a => some (.rdw a)
    | .issue i => some (.issue (encode i))
    | .issueW v => some (.issue (BitVec.ofNat 32 v))
  else none

/-- The events of a list of lines, as the host makes them; none when some line does not fit (30_encoding R70). -/
def lineEvents (aw : Nat) : List HostLine → Option (List Event)
  | [] => some []
  | l :: ls =>
    match lineEvent aw l, lineEvents aw ls with
    | some e, some es => some (e :: es)
    | _, _ => none

/-- The pseudo-commands with their named operands (30_encoding R71). -/
inductive HostCall where
  | create (db length : Nat)
  | compare (sb sw db dw : Nat)
  | get (sb sw off len : Nat)
  | overwrite (db dw val off len : Nat)
  | copy (sb sw soff db dw doff len : Nat)
  | insert (sb sw vlen off len db : Nat)
  | remove (sb sw vlen off len db : Nat)
  | interleave (sb sw bits count db : Nat)
  | clrErr
  deriving DecidableEq, Repr

/-- The lines a pseudo-command stands for, in the order of 30_encoding R71. -/
def expandCall : HostCall → List HostLine
  | .create db length => [.wr 2 db, .wr 6 length, .issue .create]
  | .compare sb sw db dw => [.wr 0 sb, .wr 1 sw, .wr 2 db, .wr 3 dw, .issue .compare]
  | .get sb sw off len => [.wr 0 sb, .wr 1 sw, .wr 4 off, .wr 6 len, .issue .get]
  | .overwrite db dw val off len => [.wr 2 db, .wr 3 dw, .wr 7 val, .wr 4 off, .wr 6 len, .issue .overwrite]
  | .copy sb sw soff db dw doff len =>
    [.wr 0 sb, .wr 1 sw, .wr 4 soff, .wr 2 db, .wr 3 dw, .wr 5 doff, .wr 6 len, .issue .copy]
  | .insert sb sw vlen off len db => [.wr 0 sb, .wr 1 sw, .wr 5 vlen, .wr 4 off, .wr 6 len, .wr 2 db, .issue .insert]
  | .remove sb sw vlen off len db => [.wr 0 sb, .wr 1 sw, .wr 5 vlen, .wr 4 off, .wr 6 len, .wr 2 db, .issue .remove]
  | .interleave sb sw bits count db => [.wr 0 sb, .wr 1 sw, .wr 6 bits, .wr 5 count, .wr 2 db, .issue .interleave]
  | .clrErr => [.wr 9 0x10]

/-! ## Reading text (30_encoding R69, R70) -/

/-- The mnemonic of a command (30_encoding R66). -/
def mnemonicOf : Instr → String
  | .create => "CREATE"
  | .compare => "COMPARE"
  | .get => "GET"
  | .overwrite => "OVERWRITE"
  | .copy => "COPY"
  | .insert => "INSERT"
  | .remove => "REMOVE"
  | .interleave => "INTERLEAVE"

/-- The eight commands in the order of the opcode map. -/
def allInstrs : List Instr := [.create, .compare, .get, .overwrite, .copy, .insert, .remove, .interleave]

/-- The command a mnemonic names. -/
def instrOfMnemonic (t : List Char) : Option Instr := allInstrs.find? (fun i => (mnemonicOf i).toList == t)

/-- Register names and role names with their numbers (10_state R21, R25). -/
def registerNames : List (String × Nat) :=
  [("A0", 0), ("A1", 1), ("A2", 2), ("A3", 3), ("A4", 4), ("A5", 5), ("A6", 6), ("A7", 7),
   ("SB", 0), ("SW", 1), ("DB", 2), ("DW", 3), ("OFF", 4), ("AUX", 5), ("LEN", 6), ("VAL", 7),
   ("R0", 8), ("STATUS", 9), ("CMD", 10)]

/-- The number of a named register, under either name for WR and RD alike (log 21). -/
def regOfName (t : List Char) : Option Nat := (registerNames.find? (fun p => p.1.toList == t)).map (·.2)

/-- The value of a digit in a base up to 16, letters of either case (log 18). -/
def digitValue (base : Nat) (c : Char) : Option Nat :=
  let d :=
    if '0' ≤ c ∧ c ≤ '9' then c.toNat - '0'.toNat
    else if 'a' ≤ c ∧ c ≤ 'f' then c.toNat - 'a'.toNat + 10
    else if 'A' ≤ c ∧ c ≤ 'F' then c.toNat - 'A'.toNat + 10
    else 16
  if d < base then some d else none

/-- Digits with optional `_` separators, onto an accumulator; the first and the last character are digits
(log 18). -/
def readDigits (base : Nat) : List Char → Nat → Option Nat
  | [], _ => none
  | [c], acc => (digitValue base c).map (fun d => acc * base + d)
  | c :: '_' :: rest, acc =>
    match digitValue base c with
    | some d => readDigits base rest (acc * base + d)
    | none => none
  | c :: rest, acc =>
    match digitValue base c with
    | some d => readDigits base rest (acc * base + d)
    | none => none

/-- A numeric literal: decimal, `0x` or `0b` (30_encoding R70). -/
def readLiteral : List Char → Option Nat
  | '0' :: 'x' :: ds => readDigits 16 ds 0
  | '0' :: 'b' :: ds => readDigits 2 ds 0
  | ds => readDigits 10 ds 0

/-- The text before the first `;` (30_encoding R70). -/
def dropComment : List Char → List Char
  | [] => []
  | c :: cs => if c = ';' then [] else c :: dropComment cs

/-- The pieces between separator characters, empty ones kept. -/
def splitChars (isSep : Char → Bool) : List Char → List (List Char)
  | [] => [[]]
  | c :: cs =>
    if isSep c then [] :: splitChars isSep cs
    else
      match splitChars isSep cs with
      | [] => [[c]]
      | p :: ps => (c :: p) :: ps

/-- A blank: a space or a tab. DESIGN CHOICE (log 19): the spec is silent on white space. -/
def isBlank (c : Char) : Bool := c == ' ' || c == '\t'

/-- The text without blanks at its two ends (log 19). -/
def trimBlanks (cs : List Char) : List Char := ((cs.dropWhile isBlank).reverse.dropWhile isBlank).reverse

/-- The first word of a line, up to the first blank, and the rest of it (log 19). -/
def firstWord : List Char → List Char × List Char
  | [] => ([], [])
  | c :: cs => if isBlank c then ([], cs) else let (w, rest) := firstWord cs; (c :: w, rest)

/-- The operands of a line: pieces between commas, blanks around each dropped; none when the rest of the line is
blank (log 19). -/
def operandTexts (cs : List Char) : List (List Char) :=
  if trimBlanks cs = [] then [] else (splitChars (· == ',') cs).map trimBlanks

/-- One operand `name=value` of a pseudo-command (30_encoding R71), blanks around the `=` dropped (log 19). -/
def readNamed (cs : List Char) : Option (List Char × Nat) :=
  match splitChars (· == '=') cs with
  | [n, v] => (readLiteral (trimBlanks v)).map (fun k => (trimBlanks n, k))
  | _ => none

/-- The value given to a name. -/
def namedValue (args : List (List Char × Nat)) (name : String) : Option Nat :=
  (args.find? (fun p => p.1 == name.toList)).map (·.2)

/-- The values of exactly the given names: "every named operand must be given" (30_encoding R71), in
any order and none twice (log 18). -/
def namedValues (args : List (List Char × Nat)) (names : List String) : Option (List Nat) :=
  if args.length = names.length then names.mapM (namedValue args) else none

/-- A pseudo-command from its mnemonic and named operands (30_encoding R71). -/
def callOf (i : Instr) (args : List (List Char × Nat)) : Option HostCall :=
  match i with
  | .create => match namedValues args ["db", "length"] with | some [d, n] => some (.create d n) | _ => none
  | .compare =>
    match namedValues args ["sb", "sw", "db", "dw"] with | some [a, wa, b, wb] => some (.compare a wa b wb) | _ => none
  | .get =>
    match namedValues args ["sb", "sw", "off", "len"] with | some [s, w, o, n] => some (.get s w o n) | _ => none
  | .overwrite =>
    match namedValues args ["db", "dw", "val", "off", "len"] with
    | some [d, w, v, o, n] => some (.overwrite d w v o n) | _ => none
  | .copy =>
    match namedValues args ["sb", "sw", "soff", "db", "dw", "doff", "len"] with
    | some [s, ws, so, d, wd, do_, n] => some (.copy s ws so d wd do_ n) | _ => none
  | .insert =>
    match namedValues args ["sb", "sw", "vlen", "off", "len", "db"] with
    | some [s, w, l, o, n, d] => some (.insert s w l o n d) | _ => none
  | .remove =>
    match namedValues args ["sb", "sw", "vlen", "off", "len", "db"] with
    | some [s, w, l, o, n, d] => some (.remove s w l o n d) | _ => none
  | .interleave =>
    match namedValues args ["sb", "sw", "bits", "count", "db"] with
    | some [s, w, b, k, d] => some (.interleave s w b k d) | _ => none

/-- The lines a line of text is written as: none for a blank or comment line (log 19), several for a pseudo-command,
and no answer for text that is not of the form (30_encoding R69 to R71). Whether values fit is `readLine`'s. -/
def parseLine (text : String) : Option (List HostLine) :=
  let cs := trimBlanks (dropComment text.toList)
  let (word, rest) := firstWord cs
  let ops := operandTexts rest
  if cs = [] then some []
  else if word = "WR".toList then
    match ops with
    | [r, v] => do return [.wr (← regOfName r) (← readLiteral v)]
    | _ => none
  else if word = "RD".toList then
    match ops with
    | [r] => do return [.rd (← regOfName r)]
    | _ => none
  else if word = "WRW".toList then
    match ops with
    | [a, v] => do return [.wrw (← readLiteral a) (← readLiteral v)]
    | _ => none
  else if word = "RDW".toList then
    match ops with
    | [a] => do return [.rdw (← readLiteral a)]
    | _ => none
  else if word = "ISSUE".toList then
    match ops with
    | [m] => do return [.issue (← instrOfMnemonic m)]
    | _ => none
  else if word = "ISSUE.W".toList then
    match ops with
    | [v] => do return [.issueW (← readLiteral v)]
    | _ => none
  else if word = "CLRERR".toList then
    if ops = [] then some (expandCall .clrErr) else none
  else do return expandCall (← callOf (← instrOfMnemonic word) (← ops.mapM readNamed))

/-- The lines one line of text stands for on a core with this `AW`: as it is written, and only when every value fits
its target (30_encoding R70). -/
def readLine (aw : Nat) (text : String) : Option (List HostLine) :=
  match parseLine text with
  | some ls => if ls.all (lineFits aw) then some ls else none
  | none => none

/-! ## Disassembly and trace (30_encoding R73) -/

/-- The hexadecimal digit of a value below 16, upper case (log 18). -/
def hexDigit (n : Nat) : Char := "0123456789ABCDEF".toList.getD n '?'

/-- The last `count` hexadecimal digits of a number, most significant first. -/
def hexDigits : Nat → Nat → List Char
  | 0, _ => []
  | count + 1, n => hexDigits count (n / 16) ++ [hexDigit (n % 16)]

/-- A command word prints as its mnemonic when legal and as `ISSUE.W 0x........` when illegal (30_encoding
R73). -/
def disassemble (w : CommandWord) : String :=
  match decode w with
  | .ok i => mnemonicOf i
  | .error _ => String.ofList ("ISSUE.W 0x".toList ++ hexDigits 8 w.toNat)

/-- The operands a command reads, under the names and in the order of 30_encoding R71 (10_state R23). DESIGN CHOICE
(log 20): GET and OVERWRITE list all of theirs also when `LEN > 64`, where 60_exceptions R186 has them stop after
`LEN`. -/
def operandsRead (i : Instr) (s : State) : List (String × Nat) :=
  match i with
  | .create => [("db", s.dbN), ("length", s.lenN)]
  | .compare => [("sb", s.sbN), ("sw", s.swN), ("db", s.dbN), ("dw", s.dwN)]
  | .get => [("sb", s.sbN), ("sw", s.swN), ("off", s.offN), ("len", s.lenN)]
  | .overwrite => [("db", s.dbN), ("dw", s.dwN), ("val", s.regs.val.toNat), ("off", s.offN), ("len", s.lenN)]
  | .copy =>
    [("sb", s.sbN), ("sw", s.swN), ("soff", s.offN), ("db", s.dbN), ("dw", s.dwN), ("doff", s.auxN), ("len", s.lenN)]
  | .insert =>
    [("sb", s.sbN), ("sw", s.swN), ("vlen", s.auxN), ("off", s.offN), ("len", s.lenN), ("db", s.dbN)]
  | .remove =>
    [("sb", s.sbN), ("sw", s.swN), ("vlen", s.auxN), ("off", s.offN), ("len", s.lenN), ("db", s.dbN)]
  | .interleave => [("sb", s.sbN), ("sw", s.swN), ("bits", s.lenN), ("count", s.auxN), ("db", s.dbN)]

/-- The trace of a command: its mnemonic and the operands it read, values in decimal (30_encoding R73; log 18). -/
def traceOf (i : Instr) (s : State) : String :=
  mnemonicOf i ++ " " ++ String.intercalate ", " ((operandsRead i s).map (fun p => p.1 ++ "=" ++ toString p.2))

end Sys2Proof.Machine
end

