-- ==== Sys2Proof/WellFormed.lean ====
section
/-! DEFINITION. What is well formed: an instruction, a command word, the parameter `AW`, an event. -/

namespace Sys2Proof

/-- Every instruction is well formed: no constructor has an operand (30_encoding R62, R64). -/
def Instr.wf : Instr → Bool
  | .create | .compare | .get | .overwrite | .copy | .insert | .remove | .interleave => true

/-- A legal command word: bits 31:8 zero and an opcode of 0x01 to 0x08 (30_encoding R61, R66, R67). -/
def CommandWord.wf (w : CommandWord) : Bool :=
  zeroField w == 0 && 1 ≤ (opcodeField w).toNat && (opcodeField w).toNat ≤ 8

/-- `1 ≤ AW ≤ 57` (00_scope R9). -/
def awWf (aw : Nat) : Bool := Config.minAw ≤ aw && aw ≤ Config.maxAw

namespace Machine

/-- An event the core has an answer for: the register number exists (10_state R25), the word address exists
(46_host_port R173, R174), and a reset gives contents only to words that exist (10_state R31). Any command
word may be issued (46_host_port R177). -/
def Event.wf (aw : Nat) : Event → Bool
  | .wr r _ => r ≤ 10
  | .rd r => r ≤ 10
  | .wrw a _ => a < Config.memWords aw
  | .rdw a => a < Config.memWords aw
  | .issue _ => true
  | .reset contents => contents.all (fun c => c.1 < Config.memWords aw)

end Machine

end Sys2Proof
end

