-- ==== Sys2Proof/Safety.lean ====
section
/-! DEFINITION. What counts as a safe run, and the words the claims are made in: bits by offset and by cursor,
arrays as numbers, when a command is defined, what a step leaves alone, the invariant. Written from the spec beside
the machine, not from the machine's own operations. -/

namespace Sys2Proof.Safety

open Sys2Proof.Machine

/-! ## Bits and arrays -/

/-- Bit at global bit offset `g` of the array at `base`: bit `g & 63` of the word at `base + (g >> 6)` (20_memory
R40). -/
def bitAt (m : Memory) (base g : Nat) : Bool := (m.readWord (base + g / 64)).getLsbD (g % 64)

/-- Bit at cursor position `c` of the array at `base`: conventional bit `63 − (c & 63)` of the word at
`base + (c >> 6)` (20_memory R42). -/
def cursorBit (m : Memory) (base c : Nat) : Bool := (m.readWord (base + c / 64)).getLsbD (63 - c % 64)

/-- The `n` words at `base` as one number, word 0 most significant (20_memory R41, 44_comparator R147). -/
def limbValue (m : Memory) (base : Nat) : Nat → Nat
  | 0 => 0
  | n + 1 => limbValue m base n * 2 ^ 64 + (m.readWord (base + n)).toNat

/-- `ceil(n / 64)`, the words that hold `n` bits (10_state R33). -/
def ceilWords (n : Nat) : Nat := (n + 63) / 64

/-- `E`: how many bits COPY moves beyond the asked range, given where the source range and the destination range
end (42_bit_mover R113). -/
def overCopy (srcEnd dstEnd : Nat) : Nat := min ((64 - srcEnd % 64) % 64) ((64 - dstEnd % 64) % 64)

/-- `T`: how many bits COPY moves in all (42_bit_mover R113). -/
def movedBits (off aux len : Nat) : Nat := if len = 0 then 0 else len + overCopy (off + len) (aux + len)

/-- Bit `i` of source vector `j` of INTERLEAVE (45_interleaver R155). -/
def vectorBit (m : Memory) (sb bits i j : Nat) : Bool := bitAt m (sb + j * ceilWords bits) i

/-- `Σ_{j < count} v_j[i] × 2^(count − 1 − j)`, one bit level of the interleaved number, vector 0 most
significant (45_interleaver R157). -/
def levelValue (m : Memory) (sb bits i : Nat) : Nat → Nat
  | 0 => 0
  | count + 1 => 2 * levelValue m sb bits i count + (vectorBit m sb bits i count).toNat

/-- `Z = Σ_{i < n, j < count} v_j[i] × 2^(i × count + count − 1 − j)`, the interleaved number of the low `n` bit
levels (45_interleaver R157). -/
def zValue (m : Memory) (sb bits count : Nat) : Nat → Nat
  | 0 => 0
  | n + 1 => levelValue m sb bits n count * 2 ^ (n * count) + zValue m sb bits count n

/-- The sequence `(v_0[B−1], …, v_{K−1}[B−1], v_0[B−2], …, v_{K−1}[0])` for the low `n` bit levels (45_interleaver
R159). -/
def zSequence (m : Memory) (sb bits count : Nat) : Nat → List Bool
  | 0 => []
  | n + 1 => (List.range count).map (vectorBit m sb bits n) ++ zSequence m sb bits count n

/-- The lexicographic order of two bit sequences of one length: −1, 0 or 1 (45_interleaver R159). -/
def lexOrder : List Bool → List Bool → Int
  | x :: xs, y :: ys => if x = y then lexOrder xs ys else if y then -1 else 1
  | _, _ => 0

/-- A vector of `len` bits at `base` is clean: its padding bits are 0 (70_reset R222). -/
def cleanVector (m : Memory) (base len : Nat) : Prop :=
  ∀ g, len ≤ g → g < 64 * ceilWords len → bitAt m base g = false

/-! ## When a command is defined (60_exceptions R189) -/

/-- The array `(base, words)` is inside `WMEM` (10_state R32). -/
abbrev inMemory (s : State) (base words : Nat) : Prop := base + words ≤ 2 ^ s.aw.val

/-- The word ranges share no word: one is empty, or one ends where the other begins or before. -/
abbrev disjointWords (a n b m : Nat) : Prop := n = 0 ∨ m = 0 ∨ a + n ≤ b ∨ b + m ≤ a

/-- The range `(off, len)` of a GET or OVERWRITE lies in an array of `words` words. -/
abbrev rangeInside (off len words : Nat) : Prop :=
  off / 64 < words ∧ (off % 64 + len > 64 → off / 64 + 1 < words)

/-- CREATE (40_allocator R80). -/
abbrev createDefined (s : State) : Prop := inMemory s s.dbN (ceilWords s.lenN)

/-- COMPARE (44_comparator R145). -/
abbrev compareDefined (s : State) : Prop := s.swN = s.dwN ∧ inMemory s s.sbN s.swN ∧ inMemory s s.dbN s.dwN

/-- GET with `LEN ≤ 64` (41_range_codec R91). -/
abbrev getDefined (s : State) : Prop := inMemory s s.sbN s.swN ∧ rangeInside s.offN s.lenN s.swN

/-- OVERWRITE with `LEN ≤ 64` (41_range_codec R96). -/
abbrev overwriteDefined (s : State) : Prop := inMemory s s.dbN s.dwN ∧ rangeInside s.offN s.lenN s.dwN

/-- COPY with `LEN ≥ 1` (42_bit_mover R111). -/
abbrev copyDefined (s : State) : Prop :=
  inMemory s s.sbN s.swN ∧ inMemory s s.dbN s.dwN ∧
    s.offN + s.lenN ≤ 64 * s.swN ∧ s.auxN + s.lenN ≤ 64 * s.dwN

/-- INSERT (43_structural_editor R125, R126). -/
abbrev insertDefined (s : State) : Prop :=
  s.swN = ceilWords s.auxN ∧ s.offN ≤ s.auxN ∧ inMemory s s.sbN s.swN ∧
    inMemory s s.dbN (ceilWords (s.auxN + s.lenN)) ∧
    disjointWords s.sbN s.swN s.dbN (ceilWords (s.auxN + s.lenN))

/-- REMOVE (43_structural_editor R125, R131). -/
abbrev removeDefined (s : State) : Prop :=
  s.swN = ceilWords s.auxN ∧ s.offN + s.lenN ≤ s.auxN ∧ inMemory s s.sbN s.swN ∧
    inMemory s s.dbN (ceilWords (s.auxN - s.lenN)) ∧
    disjointWords s.sbN s.swN s.dbN (ceilWords (s.auxN - s.lenN))

/-- INTERLEAVE (45_interleaver R156). -/
abbrev interleaveDefined (s : State) : Prop :=
  s.auxN * ceilWords s.lenN ≤ s.swN ∧ inMemory s s.sbN s.swN ∧
    inMemory s s.dbN (ceilWords (s.lenN * s.auxN)) ∧
    disjointWords s.sbN s.swN s.dbN (ceilWords (s.lenN * s.auxN))

/-- A command the spec gives an outcome: it ends in an error, or all its preconditions hold (60_exceptions R188,
R189, R191). -/
def Defined (i : Instr) (s : State) : Prop :=
  match i with
  | .create => createDefined s
  | .compare => compareDefined s
  | .get => s.lenN > 64 ∨ getDefined s
  | .overwrite => s.lenN > 64 ∨ overwriteDefined s
  | .copy => s.lenN = 0 ∨ copyDefined s
  | .insert => insertDefined s
  | .remove => removeDefined s
  | .interleave => interleaveDefined s

/-- The operand registers a command names hold the same in both (10_state R23). -/
def sameOperands (i : Instr) (r r' : OperandRegs) : Prop :=
  match i with
  | .create => r.db = r'.db ∧ r.len = r'.len
  | .compare => r.sb = r'.sb ∧ r.sw = r'.sw ∧ r.db = r'.db ∧ r.dw = r'.dw
  | .get => r.sb = r'.sb ∧ r.sw = r'.sw ∧ r.off = r'.off ∧ r.len = r'.len
  | .overwrite => r.db = r'.db ∧ r.dw = r'.dw ∧ r.off = r'.off ∧ r.len = r'.len ∧ r.val = r'.val
  | .copy =>
    r.sb = r'.sb ∧ r.sw = r'.sw ∧ r.off = r'.off ∧ r.db = r'.db ∧ r.dw = r'.dw ∧ r.aux = r'.aux ∧ r.len = r'.len
  | .insert | .remove =>
    r.sb = r'.sb ∧ r.sw = r'.sw ∧ r.db = r'.db ∧ r.off = r'.off ∧ r.aux = r'.aux ∧ r.len = r'.len
  | .interleave => r.sb = r'.sb ∧ r.sw = r'.sw ∧ r.db = r'.db ∧ r.aux = r'.aux ∧ r.len = r'.len

/-! ## What a command leaves alone -/

/-- Every byte of memory outside the words `[base, base + n)` reads as before. -/
def bytesKept (m m' : Memory) (base n : Nat) : Prop :=
  ∀ b, ¬(8 * base ≤ b ∧ b < 8 * (base + n)) → m'.readByte b = m.readByte b

/-- Every byte of memory reads as before. -/
def allBytesKept (m m' : Memory) : Prop := ∀ b, m'.readByte b = m.readByte b

/-- The operand registers, the parameter `AW` and the model's own fields are unchanged. -/
def shellKept (s t : State) : Prop := t.regs = s.regs ∧ t.aw = s.aw ∧ t.pending = s.pending ∧ t.reply = s.reply

/-- `STATUS` after a command that completed: `ERR` 0, every other bit as before (10_state R27). -/
def statusCompleted (s t : State) : Prop := t.status = s.status &&& ~~~0xF#64

/-- `STATUS` after an error with this code: `ERR` the code, `ESTICKY` 1, the bits above as before (60_exceptions
R193). -/
def statusRaised (s t : State) (code : Word) : Prop := t.status = (s.status &&& ~~~0x1F#64) ||| 0x10#64 ||| code

/-- The host's WR to an operand register, or a reset. -/
def writesOperand : Event → Bool
  | .wr r _ => r ≤ 7
  | .reset _ => true
  | _ => false

/-- The command an event issues, if it issues a legal one (46_host_port R171, R175). -/
def commandOf : Event → Option Instr
  | .issue w => (decode w).toOption
  | .wr 10 v => (decode (v.setWidth 32)).toOption
  | _ => none

/-! ## The invariant -/

/-- What holds of every state the machine reaches: memory in canonical form and inside `WMEM`, `AW` as the spec
allows it, `STATUS` with its reserved bits 0 and a code that exists (00_scope R9, 10_state R26, R31). -/
def StateInv (s : State) : Prop :=
  s.mem.wf = true ∧ s.mem.within (2 ^ s.aw.val) = true ∧ awWf s.aw.val = true ∧
    s.status &&& ~~~0x1F#64 = 0 ∧ (s.status &&& 0xF#64).toNat ≤ 2

end Sys2Proof.Safety
end

