-- ==== Sys2Proof/Certificates/Slice0/Obligations.lean ====
section
/-! DEFINITION. What is claimed of the machine, statement by statement, each after the rule of spec/ it formalises. -/

open Sys2Proof Sys2Proof.Machine Sys2Proof.Safety

/-! ## Command words (30_encoding) -/

/-- 30_encoding R66: the opcode map; a word selects a row when `w & mask == match`, and is then that command. -/
def Obligations.DecodeSelectsByMatchAndMask : Prop :=
  ∀ w : CommandWord,
    (decode w = .ok .create ↔ w &&& 0xFFFFFFFF#32 = 0x00000001#32) ∧
    (decode w = .ok .compare ↔ w &&& 0xFFFFFFFF#32 = 0x00000002#32) ∧
    (decode w = .ok .get ↔ w &&& 0xFFFFFFFF#32 = 0x00000003#32) ∧
    (decode w = .ok .overwrite ↔ w &&& 0xFFFFFFFF#32 = 0x00000004#32) ∧
    (decode w = .ok .copy ↔ w &&& 0xFFFFFFFF#32 = 0x00000005#32) ∧
    (decode w = .ok .insert ↔ w &&& 0xFFFFFFFF#32 = 0x00000006#32) ∧
    (decode w = .ok .remove ↔ w &&& 0xFFFFFFFF#32 = 0x00000007#32) ∧
    (decode w = .ok .interleave ↔ w &&& 0xFFFFFFFF#32 = 0x00000008#32)

/-- 30_encoding R67: every word but the eight is illegal, exactly 8 are legal, and an illegal word raises
IllegalCommand: `ERR <- 2`, `ESTICKY <- 1`, nothing else changes whatever the registers hold. -/
def Obligations.IllegalWordsRaiseIllegalCommand : Prop :=
  (∀ w : CommandWord, w.toNat / 256 ≠ 0 ∨ w.toNat % 256 = 0 ∨ 9 ≤ w.toNat % 256 →
    ∀ s rest, s.pending = .issue w :: rest →
      ∃ t, step s = .next t ∧ statusRaised s t 2 ∧
        t = { s with status := t.status, pending := rest, reply := none }) ∧
  ∃ ws : List CommandWord, ws.length = 8 ∧ ws.Nodup ∧ ∀ w, (∃ i, decode w = .ok i) ↔ w ∈ ws

/-- Words written out from 30_encoding R61, R66, R67, and what they decode to. -/
def Obligations.WrittenOutWordsDecode : Prop :=
  decode 0b00000000000000000000000000000001#32 = .ok .create ∧
  decode 0b00000000000000000000000000000010#32 = .ok .compare ∧
  decode 0b00000000000000000000000000000011#32 = .ok .get ∧
  decode 0b00000000000000000000000000000101#32 = .ok .copy ∧
  decode 0b00000000000000000000000000000111#32 = .ok .remove ∧
  decode 0b00000000000000000000000000001000#32 = .ok .interleave ∧
  decode 0b00000000000000000000000000000000#32 = .error .unusedOpcode ∧
  decode 0b00000000000000000000000100000011#32 = .error .zeroFieldSet

/-- Encoding then decoding gives the command back, and decoding then encoding gives the word back (30_encoding R61,
R66, R75). -/
def Obligations.EncodeAndDecodeAgree : Prop :=
  (∀ i, i.wf = true → decode (encode i) = .ok i ∧ CommandWord.wf (encode i) = true) ∧
  (∀ w i, decode w = .ok i → encode i = w) ∧
  ∀ w, CommandWord.wf w = true ↔ ∃ i, decode w = .ok i

/-! ## Steps and the host port (46_host_port) -/

/-- A step runs the decoded command: when the first pending event issues a word that decodes to `i`, by ISSUE or by WR
to `CMD`, the step is exec of `i` on the state without that event and without the last answer. -/
def Obligations.StepRunsTheIssuedCommand : Prop :=
  (∀ s rest w i, s.pending = .issue w :: rest → decode w = .ok i →
    step s = exec i { s with pending := rest, reply := none }) ∧
  ∀ s rest v i, s.pending = .wr 10 v :: rest → decode (v.setWidth 32) = .ok i →
    step s = exec i { s with pending := rest, reply := none }

/-- 46_host_port R170: "Between two host moves nothing changes: the core has no spontaneous step." -/
def Obligations.IdleCoreChangesNothing : Prop := ∀ s, s.pending = [] → step s = .next s

/-- Every step leaves `AW` as it was and takes exactly the first event off the queue (10_state R34; log 1, log 4). -/
def Obligations.StepTakesOneEventAndKeepsAw : Prop :=
  ∀ s t, step s = .next t → t.aw = s.aw ∧ t.pending = s.pending.tail

/-- 46_host_port R171: what WR does to each register number. -/
def Obligations.HostWriteActsByRegisterNumber : Prop :=
  ∀ s r v rest, s.pending = .wr r v :: rest →
    (r ≤ 7 → ∃ t, step s = .next t ∧ t = { s with regs := t.regs, pending := rest, reply := none } ∧
      ∀ q, q ≤ 7 → t.readReg? q = if q = r then some v else s.readReg? q) ∧
    (r = 8 → step s = .next { s with pending := rest, reply := none }) ∧
    (r = 9 → step s = .next { s with
      status := if v.getLsbD 4 then s.status &&& ~~~0x10#64 else s.status, pending := rest, reply := none }) ∧
    (r = 10 → step s = step { s with pending := .issue (v.setWidth 32) :: rest })

/-- 46_host_port R172: what RD returns for each register number; no state changes but the answer. -/
def Obligations.HostReadReturnsTheRegister : Prop :=
  ∀ s r rest, s.pending = .rd r :: rest → r ≤ 10 →
    ∃ v, step s = .next { s with pending := rest, reply := some v } ∧
      (r = 0 → v = s.regs.sb) ∧ (r = 1 → v = s.regs.sw) ∧ (r = 2 → v = s.regs.db) ∧ (r = 3 → v = s.regs.dw) ∧
      (r = 4 → v = s.regs.off) ∧ (r = 5 → v = s.regs.aux) ∧ (r = 6 → v = s.regs.len) ∧ (r = 7 → v = s.regs.val) ∧
      (r = 8 → v = s.r0) ∧
      (r = 9 → (∀ k, v.getLsbD k = (decide (k ≤ 4) && s.status.getLsbD k))) ∧
      (r = 10 → v = 0)

/-- 46_host_port R173, R174: WRW writes one word, RDW returns one word and changes no state but the answer. -/
def Obligations.HostWordTransactions : Prop :=
  (∀ s a v rest, s.pending = .wrw a v :: rest → a < 2 ^ s.aw.val →
    ∃ t, step s = .next t ∧ t = { s with mem := t.mem, pending := rest, reply := none } ∧
      t.mem.readWord a = v ∧ bytesKept s.mem t.mem a 1) ∧
  ∀ s a rest, s.pending = .rdw a :: rest → a < 2 ^ s.aw.val →
    step s = .next { s with pending := rest, reply := some (s.mem.readWord a) }

/-- A step is refused exactly when its event names a register or a word that does not exist (10_state R25,
46_host_port R173, R174, 93_implementation_defined U12; for the contents of a reset, log 6). -/
def Obligations.RefusedExactlyWhenIllFormed : Prop :=
  ∀ s, (∃ r, step s = .refused r) ↔ ∃ e rest, s.pending = e :: rest ∧ e.wf s.aw.val = false

/-- The reset event leaves `A0..A7 = 0`, `R0 = 0`, `STATUS = 0`, and `WMEM` may hold anything at all after it (10_state
R36). That `AW` and the events still pending are as before is the model's choice (log 1, log 6; 10_state R34 has `AW`
fixed and the host's list the host's own). -/
def Obligations.ResetClearsRegistersAndLeavesAnyMemory : Prop :=
  (∀ s contents rest, s.pending = .reset contents :: rest → (∀ c ∈ contents, c.1 < 2 ^ s.aw.val) →
    ∃ t, step s = .next t ∧ (∀ r, r ≤ 9 → t.readReg? r = some 0) ∧ t.status = 0 ∧ t.aw = s.aw ∧ t.pending = rest) ∧
  ∀ (s : State) (rest : List Event) (f : Nat → Word), ∃ contents t,
    step { s with pending := .reset contents :: rest } = .next t ∧ ∀ a, a < 2 ^ s.aw.val → t.mem.readWord a = f a

/-! ## The invariant -/

/-- `State.reset` holds the register values of 10_state R36 and meets the invariant. -/
def Obligations.ResetStateMeetsTheInvariant : Prop :=
  StateInv State.reset ∧ State.reset.r0 = 0 ∧ State.reset.status = 0 ∧ ∀ r, r ≤ 10 → State.reset.readReg? r = some 0

/-- From every state that meets the invariant, a step that answers a state answers one that meets it: memory stays in
canonical form and inside `WMEM`, `STATUS` bits 63:5 stay 0 and `ERR` stays 0, 1 or 2 (10_state R26, R31). -/
def Obligations.EveryStepKeepsTheInvariant : Prop := ∀ s t, StateInv s → step s = .next t → StateInv t

/-! ## Errors and `STATUS` (60_exceptions, 10_state) -/

/-- 60_exceptions R186: GET and OVERWRITE raise InvalidRangeLength exactly when `LEN > 64`, before anything else is
looked at; the other commands never do. -/
def Obligations.RangeLengthErrorComesFirst : Prop :=
  (∀ s, 64 < s.lenN →
    (∃ t, exec .get s = .next t ∧ statusRaised s t 1 ∧ t = { s with status := t.status }) ∧
    ∃ t, exec .overwrite s = .next t ∧ statusRaised s t 1 ∧ t = { s with status := t.status }) ∧
  (∀ s t, s.lenN ≤ 64 → exec .get s = .next t ∨ exec .overwrite s = .next t → statusCompleted s t) ∧
  ∀ i s t, i ≠ .get → i ≠ .overwrite → exec i s = .next t → statusCompleted s t

/-- 60_exceptions R193: a command that ends by InvalidRangeLength or IllegalCommand records its code and sets
`ESTICKY`; `R0`, `A0..A7` and every word of `WMEM` are unchanged, and the host's next transaction is next. -/
def Obligations.ErrorsChangeStatusOnly : Prop :=
  ∀ s e rest w, s.pending = e :: rest → e = .issue w ∨ (∃ v : Word, e = .wr 10 v ∧ v.setWidth 32 = w) →
    ((∀ i, decode w ≠ .ok i) →
      ∃ t, step s = .next t ∧ t.err = 2 ∧ t.esticky = true ∧ t.r0 = s.r0 ∧ t.regs = s.regs ∧ t.mem = s.mem ∧
        t.pending = rest) ∧
    (decode w = .ok .get ∨ decode w = .ok .overwrite → 64 < s.lenN →
      ∃ t, step s = .next t ∧ t.err = 1 ∧ t.esticky = true ∧ t.r0 = s.r0 ∧ t.regs = s.regs ∧ t.mem = s.mem ∧
        t.pending = rest)

/-- A completed command writes `ERR <- 0` and leaves `ESTICKY`; a failed one writes its code and sets `ESTICKY`; the
other bits of `STATUS` are untouched (10_state R26, R27). -/
def Obligations.CommandsWriteErrAndSticky : Prop :=
  ∀ i s t, exec i s = .next t →
    ((t.err = 0 ∧ t.esticky = s.esticky) ∨ (t.err = 1 ∧ t.esticky = true ∧ t.r0 = s.r0 ∧ t.mem = s.mem)) ∧
    ∀ k, 5 ≤ k → t.status.getLsbD k = s.status.getLsbD k

/-- No command reads `STATUS`: what it does to everything else, and whether it faults, is the same whatever `STATUS`
holds (10_state R27). -/
def Obligations.NoCommandReadsStatus : Prop :=
  ∀ i s st,
    (∀ t, exec i s = .next t → ∃ t', exec i { s with status := st } = .next t' ∧
      t' = { t with status := t'.status } ∧ t'.err = t.err) ∧
    ∀ f, exec i s = .fault f → exec i { s with status := st } = .fault f

/-- No move but WR of bit 4 to `STATUS` and reset clears `ESTICKY` (10_state R26, 60_exceptions R194). -/
def Obligations.OnlyStatusWriteOrResetClearsSticky : Prop :=
  ∀ s t, step s = .next t → s.esticky = true → t.esticky = false →
    ∃ e rest, s.pending = e :: rest ∧
      ((∃ v : Word, e = .wr 9 v ∧ v.getLsbD 4 = true) ∨ ∃ contents, e = .reset contents)

/-! ## Registers (10_state R22, R23) -/

/-- No command writes an operand register, `AW`, or the model's own fields, whether it completes or fails. -/
def Obligations.NoCommandWritesOperandRegisters : Prop := ∀ i s t, exec i s = .next t → shellKept s t

/-- Only WR to an operand register and reset change an operand register: "after every command, successful or failed,
`A0..A7` hold what the host last wrote". -/
def Obligations.OnlyHostChangesOperandRegisters : Prop :=
  ∀ s t, step s = .next t → t.regs ≠ s.regs → ∃ e rest, s.pending = e :: rest ∧ writesOperand e = true

/-- A register a command does not name is ignored by it whatever it holds (10_state R22, R23): with the named registers
the same, the command does the same. -/
def Obligations.UnnamedRegistersAreIgnored : Prop :=
  ∀ i s r, sameOperands i s.regs r →
    (∀ t, exec i s = .next t → exec i { s with regs := r } = .next { t with regs := r }) ∧
    ∀ f, exec i s = .fault f → exec i { s with regs := r } = .fault f

/-! ## Preconditions (60_exceptions R188, R189, R191) -/

/-- A command the spec gives an outcome answers a state; one with a false precondition faults; none is refused. -/
def Obligations.FaultsExactlyWhenUndefined : Prop :=
  ∀ i s, (Defined i s ∧ ∃ t, exec i s = .next t) ∨ (¬Defined i s ∧ ∃ f, exec i s = .fault f)

/-- A step faults only by issuing a legal command that is not defined. -/
def Obligations.FaultsComeOnlyFromUndefinedCommands : Prop :=
  ∀ s f, step s = .fault f →
    ∃ e rest i, s.pending = e :: rest ∧ commandOf e = some i ∧ ¬Defined i s

/-- A move that is no WRW, no reset and no writing command leaves every byte of `WMEM` as it was (20_memory R49,
10_state R31). -/
def Obligations.OnlyWritersChangeMemory : Prop :=
  ∀ s t e rest, step s = .next t → s.pending = e :: rest → (∀ a v, e ≠ .wrw a v) → (∀ cs, e ≠ .reset cs) →
    (∀ i, commandOf e = some i → i = .get ∨ i = .compare) → t.mem = s.mem

/-! ## The primitives -/

/-- 00_scope R13: `maskBelow(n) = 2^n − 1` for `0 ≤ n ≤ 64`, with the rule's own four values; and every width the
commands apply it to is at most 64: both parts of a range, a chunk of COPY, the low bits of a boundary word. -/
def Obligations.MaskBelowIsAllOnesBelow : Prop :=
  (∀ n, n ≤ 64 → (maskBelow n).toNat = 2 ^ n - 1 ∧ ∀ k, k < 64 → (maskBelow n).getLsbD k = decide (k < n)) ∧
  maskBelow 0 = 0 ∧ maskBelow 1 = 1 ∧ maskBelow 63 = 0x7FFFFFFFFFFFFFFF#64 ∧ maskBelow 64 = 0xFFFFFFFFFFFFFFFF#64 ∧
  (∀ off len, len ≤ 64 → lowPart off len ≤ 64 ∧ len - lowPart off len ≤ 64) ∧
  (∀ s d, chunkLen s d ≤ 64) ∧ ∀ off, bitIdx off ≤ 64

/-- 41_range_codec R90: the split of a range of at most 64 bits, and where each of its bits lies. -/
def Obligations.RangeSplitsAtTheWordBoundary : Prop :=
  ∀ off len, len ≤ 64 →
    wordIdx off = off / 64 ∧ bitIdx off = off % 64 ∧ lowPart off len = min len (64 - off % 64) ∧
    lowPart off len ≤ 64 ∧ (lowPart off len = len ↔ off % 64 + len ≤ 64) ∧
    (64 < off % 64 + len → lowPart off len = 64 - off % 64 ∧ 1 ≤ off % 64 ∧ 1 ≤ lowPart off len ∧
      lowPart off len ≤ 63 ∧ 1 ≤ len - lowPart off len ∧ len - lowPart off len ≤ 63) ∧
    (lowPart off len = 64 → off % 64 = 0 ∧ len = 64) ∧
    (∀ k, k < lowPart off len → (off + k) / 64 = wordIdx off ∧ (off + k) % 64 = bitIdx off + k) ∧
    ∀ k, lowPart off len ≤ k → k < len → (off + k) / 64 = wordIdx off + 1 ∧ (off + k) % 64 = k - lowPart off len

/-! ## CREATE (40_allocator) -/

/-- 40_allocator R81: after CREATE `R0 = ceil(LEN / 64)` and that many words from `DB` are 0; nothing else changes. -/
def Obligations.CreateZeroesItsArray : Prop :=
  ∀ s, createDefined s → ∃ t, exec .create s = .next t ∧
    t.r0.toNat = ceilWords s.lenN ∧ (∀ k, k < t.r0.toNat → t.mem.readWord (s.dbN + k) = 0) ∧
    bytesKept s.mem t.mem s.dbN (ceilWords s.lenN) ∧ shellKept s t ∧ statusCompleted s t

/-- 40_allocator R82: every offset below `LEN` lives in a word of the new array, the padding is below 64 bits, and the
word count is that of the logical length. -/
def Obligations.CreatedArrayHoldsEveryOffset : Prop :=
  ∀ s t, exec .create s = .next t →
    (∀ g, g < s.lenN → g / 64 < t.r0.toNat ∧ s.dbN + g / 64 < 2 ^ s.aw.val) ∧
    s.lenN ≤ 64 * t.r0.toNat ∧ 64 * t.r0.toNat - s.lenN ≤ 63 ∧ t.r0.toNat = ceilWords s.lenN

/-! ## GET and OVERWRITE (41_range_codec) -/

/-- 41_range_codec R92: bit `k` of `R0` is the bit at `OFF + k` for `k < LEN`, 0 above, so `R0 < 2^LEN`; `R0` depends
on no bit outside the range; only `R0` and `STATUS` change. -/
def Obligations.GetReturnsTheRange : Prop :=
  (∀ s, s.lenN ≤ 64 → getDefined s → ∃ t, exec .get s = .next t ∧
    t.r0.toNat < 2 ^ s.lenN ∧ (∀ k, t.r0.getLsbD k = (decide (k < s.lenN) && bitAt s.mem s.sbN (s.offN + k))) ∧
    t.mem = s.mem ∧ shellKept s t ∧ statusCompleted s t) ∧
  ∀ s s' t t', s.lenN ≤ 64 → s'.regs = s.regs →
    (∀ k, k < s.lenN → bitAt s'.mem s.sbN (s.offN + k) = bitAt s.mem s.sbN (s.offN + k)) →
    exec .get s = .next t → exec .get s' = .next t' → t'.r0 = t.r0

/-- 41_range_codec R97: OVERWRITE puts the low `LEN` bits of `VAL` in the range and leaves every other bit of `WMEM`
alone; the words it stores to are `idx` and, when the range straddles, `idx + 1`; `R0` is unchanged. -/
def Obligations.OverwriteReplacesOnlyTheRange : Prop :=
  ∀ s, s.lenN ≤ 64 → overwriteDefined s → ∃ t, exec .overwrite s = .next t ∧
    (∀ k, k < s.lenN → bitAt t.mem s.dbN (s.offN + k) = s.regs.val.getLsbD k) ∧
    (∀ g, ¬(64 * s.dbN + s.offN ≤ g ∧ g < 64 * s.dbN + s.offN + s.lenN) → bitAt t.mem 0 g = bitAt s.mem 0 g) ∧
    bytesKept s.mem t.mem (s.dbN + s.offN / 64) (if s.offN % 64 + s.lenN > 64 then 2 else 1) ∧
    t.r0 = s.r0 ∧ shellKept s t ∧ statusCompleted s t

/-- 41_range_codec R98: OVERWRITE then GET of the same range returns `VAL & maskBelow(LEN)`, and every bit outside the
range is as before the OVERWRITE. -/
def Obligations.OverwriteThenGetRoundTrips : Prop :=
  ∀ s, s.lenN ≤ 64 → overwriteDefined s → ∃ t, exec .overwrite s = .next t ∧
    (∀ g, ¬(64 * s.dbN + s.offN ≤ g ∧ g < 64 * s.dbN + s.offN + s.lenN) → bitAt t.mem 0 g = bitAt s.mem 0 g) ∧
    ∀ u, u.mem = t.mem → u.aw = t.aw → u.regs.sb = s.regs.db → u.regs.sw = s.regs.dw →
      u.regs.off = s.regs.off → u.regs.len = s.regs.len →
      ∃ v, exec .get u = .next v ∧ v.r0 = s.regs.val &&& BitVec.ofNat 64 (2 ^ s.lenN - 1)

/-- 20_memory R49: OVERWRITE is idempotent, and COPY is when its arrays share no word. -/
def Obligations.OverwriteAndCopyAreIdempotent : Prop :=
  (∀ s t u, exec .overwrite s = .next t → exec .overwrite t = .next u → allBytesKept t.mem u.mem) ∧
  ∀ s t u, disjointWords s.sbN s.swN s.dbN s.dwN → exec .copy s = .next t → exec .copy t = .next u →
    allBytesKept t.mem u.mem

/-! ## COPY (42_bit_mover) -/

/-- 42_bit_mover R112: a chunk lies in one source word and one destination word, and ends at a boundary of one of
them; an iteration stores to one destination word only and depends on that word and one source word only. -/
def Obligations.ChunkStaysInOneWordOnEachSide : Prop :=
  ∀ s d, 1 ≤ chunkLen s d ∧ s % 64 + chunkLen s d ≤ 64 ∧ d % 64 + chunkLen s d ≤ 64 ∧
    ((s + chunkLen s d) % 64 = 0 ∨ (d + chunkLen s d) % 64 = 0) ∧
    ∀ m sb db, bytesKept m (copyChunk m sb s db d) (db + d / 64) 1 ∧
      ∀ m', m'.readWord (sb + s / 64) = m.readWord (sb + s / 64) → m'.readWord (db + d / 64) = m.readWord (db + d / 64) →
        (copyChunk m' sb s db d).readWord (db + d / 64) = (copyChunk m sb s db d).readWord (db + d / 64)

/-- The loop of COPY is the pseudocode of 42_bit_mover R111, turn by turn, also for arrays that overlap (R116): the
bound the model runs it with is never felt (70_reset R232). -/
def Obligations.CopyFollowsThePseudocode : Prop :=
  (∀ m sb s db d limit, copyBits m sb s db d limit =
    if s < limit then
      copyBits
        (m.writeWord (db + d / 64) (m.readWord (db + d / 64) |||
          (((m.readWord (sb + s / 64) >>> (s % 64)) &&&
            BitVec.ofNat 64 (2 ^ min (64 - s % 64) (64 - d % 64) - 1)) <<< (d % 64))))
        sb (s + min (64 - s % 64) (64 - d % 64)) db (d + min (64 - s % 64) (64 - d % 64)) limit
    else m) ∧
  ∀ s, s.lenN = 0 ∨ copyDefined s → ∃ t, exec .copy s = .next t ∧
    t.mem = copyBits s.mem s.sbN s.offN s.dbN s.auxN (s.offN + s.lenN) ∧
    t.r0 = s.r0 ∧ shellKept s t ∧ statusCompleted s t

/-- COPY with `LEN = 0` completes whatever the other registers hold, and changes only `STATUS.ERR` (42_bit_mover
R111). -/
def Obligations.ZeroLengthCopyChangesNothing : Prop :=
  ∀ s, s.lenN = 0 → ∃ t, exec .copy s = .next t ∧ t = { s with status := t.status } ∧ statusCompleted s t

/-- 42_bit_mover R114: for any destination contents and any overlap, COPY completes, no bit is cleared, and every bit
outside the destination bits `[AUX, AUX + T)` is unchanged. -/
def Obligations.CopyOnlyOrsIntoItsWindow : Prop :=
  ∀ s, s.lenN = 0 ∨ copyDefined s → ∃ t, exec .copy s = .next t ∧
    (∀ g, bitAt s.mem 0 g = true → bitAt t.mem 0 g = true) ∧
    (∀ g, ¬(64 * s.dbN + s.auxN ≤ g ∧ g < 64 * s.dbN + s.auxN + movedBits s.offN s.auxN s.lenN) →
      bitAt t.mem 0 g = bitAt s.mem 0 g) ∧
    bytesKept s.mem t.mem s.dbN s.dwN ∧ t.r0 = s.r0 ∧ shellKept s t ∧ statusCompleted s t

/-- 42_bit_mover R115: when the arrays share no word, destination bit `AUX + k` becomes its old value OR source bit
`OFF + k` for every `k < T`, every other bit is unchanged, and the source array is unchanged; onto zeros the copy is
exact. -/
def Obligations.CopyMovesRangeAndWindow : Prop :=
  ∀ s, 1 ≤ s.lenN → copyDefined s → disjointWords s.sbN s.swN s.dbN s.dwN → ∃ t, exec .copy s = .next t ∧
    (∀ k, k < movedBits s.offN s.auxN s.lenN →
      bitAt t.mem s.dbN (s.auxN + k) = (bitAt s.mem s.dbN (s.auxN + k) || bitAt s.mem s.sbN (s.offN + k))) ∧
    (∀ g, ¬(64 * s.dbN + s.auxN ≤ g ∧ g < 64 * s.dbN + s.auxN + movedBits s.offN s.auxN s.lenN) →
      bitAt t.mem 0 g = bitAt s.mem 0 g) ∧
    (∀ i, i < s.swN → t.mem.readWord (s.sbN + i) = s.mem.readWord (s.sbN + i)) ∧
    ((∀ k, k < movedBits s.offN s.auxN s.lenN → bitAt s.mem s.dbN (s.auxN + k) = false) →
      ∀ k, k < movedBits s.offN s.auxN s.lenN →
        bitAt t.mem s.dbN (s.auxN + k) = bitAt s.mem s.sbN (s.offN + k))

/-- The over-copy window and where COPY reads and writes (42_bit_mover R113). `T` is what the turns of the loop move in
all; it exceeds `LEN` by at most 63 bits, by none when either range ends on a word boundary, and the moved bits lie in
the two arrays. COPY answers a state, stores inside the destination array only, and what it leaves in the two arrays,
overlapping or not, depends on the words of the two arrays alone: no read of its source leaves them. -/
def Obligations.OverCopyWindowStaysInTheArrays : Prop :=
  (∀ s d limit, movedBits s d (limit - s) =
    if s < limit then
      chunkLen s d + movedBits (s + chunkLen s d) (d + chunkLen s d) (limit - (s + chunkLen s d))
    else 0) ∧
  ∀ s, 1 ≤ s.lenN → copyDefined s →
    s.lenN ≤ movedBits s.offN s.auxN s.lenN ∧ movedBits s.offN s.auxN s.lenN ≤ s.lenN + 63 ∧
    ((s.offN + s.lenN) % 64 = 0 ∨ (s.auxN + s.lenN) % 64 = 0 → movedBits s.offN s.auxN s.lenN = s.lenN) ∧
    s.offN + movedBits s.offN s.auxN s.lenN ≤ 64 * s.swN ∧ s.auxN + movedBits s.offN s.auxN s.lenN ≤ 64 * s.dwN ∧
    ∃ t, exec .copy s = .next t ∧ bytesKept s.mem t.mem s.dbN s.dwN ∧
      ∀ s', s'.regs = s.regs → s'.aw = s.aw →
        (∀ i, i < s.swN → s'.mem.readWord (s.sbN + i) = s.mem.readWord (s.sbN + i)) →
        (∀ i, i < s.dwN → s'.mem.readWord (s.dbN + i) = s.mem.readWord (s.dbN + i)) →
        ∃ t', exec .copy s' = .next t' ∧
          (∀ i, i < s.swN → t'.mem.readWord (s.sbN + i) = t.mem.readWord (s.sbN + i)) ∧
          ∀ i, i < s.dwN → t'.mem.readWord (s.dbN + i) = t.mem.readWord (s.dbN + i)

/-! ## INSERT and REMOVE (43_structural_editor) -/

/-- 43_structural_editor R127: the bits of INSERT's result below, in and above the inserted range; the input array is
unchanged; only the new array, `R0` and `STATUS` change. -/
def Obligations.InsertSplicesZeroBits : Prop :=
  ∀ s, insertDefined s → ∃ t, exec .insert s = .next t ∧
    t.r0.toNat = ceilWords (s.auxN + s.lenN) ∧
    (∀ g, g < s.offN → bitAt t.mem s.dbN g = bitAt s.mem s.sbN g) ∧
    (∀ g, s.offN ≤ g → g < s.offN + s.lenN → bitAt t.mem s.dbN g = false) ∧
    (∀ g, s.offN + s.lenN ≤ g → g < s.auxN + s.lenN → bitAt t.mem s.dbN g = bitAt s.mem s.sbN (g - s.lenN)) ∧
    (∀ i, i < s.swN → t.mem.readWord (s.sbN + i) = s.mem.readWord (s.sbN + i)) ∧
    bytesKept s.mem t.mem s.dbN (ceilWords (s.auxN + s.lenN)) ∧ shellKept s t ∧ statusCompleted s t

/-- 43_structural_editor R132: the bits of REMOVE's result below and above the cut; the input array is unchanged; only
the new array, `R0` and `STATUS` change. -/
def Obligations.RemoveCutsTheRange : Prop :=
  ∀ s, removeDefined s → ∃ t, exec .remove s = .next t ∧
    t.r0.toNat = ceilWords (s.auxN - s.lenN) ∧
    (∀ g, g < s.offN → bitAt t.mem s.dbN g = bitAt s.mem s.sbN g) ∧
    (∀ g, s.offN ≤ g → g < s.auxN - s.lenN → bitAt t.mem s.dbN g = bitAt s.mem s.sbN (g + s.lenN)) ∧
    (∀ i, i < s.swN → t.mem.readWord (s.sbN + i) = s.mem.readWord (s.sbN + i)) ∧
    bytesKept s.mem t.mem s.dbN (ceilWords (s.auxN - s.lenN)) ∧ shellKept s t ∧ statusCompleted s t

/-- 43_structural_editor R133: REMOVE undoes INSERT: the result has `WORDS(L)` words and equals the vector over
`[0, L)`. -/
def Obligations.RemoveUndoesInsert : Prop :=
  ∀ s, insertDefined s → ∃ t, exec .insert s = .next t ∧
    ∀ u, u.mem = t.mem → u.aw = t.aw → u.regs.sb = s.regs.db → u.regs.sw = t.r0 → u.auxN = s.auxN + s.lenN →
      u.regs.off = s.regs.off → u.regs.len = s.regs.len → inMemory u u.dbN (ceilWords s.auxN) →
      disjointWords u.sbN u.swN u.dbN (ceilWords s.auxN) →
      ∃ v, exec .remove u = .next v ∧ v.r0.toNat = ceilWords s.auxN ∧
        ∀ g, g < s.auxN → bitAt v.mem u.dbN g = bitAt s.mem s.sbN g

/-- 43_structural_editor R134: INSERT and REMOVE with `LEN = 0` return `SW` words; every word equals the input's when
`OFF < AUX` or the input's padding is zero. -/
def Obligations.ZeroLengthSpliceCopiesTheVector : Prop :=
  ∀ s, s.lenN = 0 →
    (insertDefined s → ∃ t, exec .insert s = .next t ∧ t.r0.toNat = s.swN ∧
      (s.offN < s.auxN ∨ cleanVector s.mem s.sbN s.auxN →
        ∀ i, i < s.swN → t.mem.readWord (s.dbN + i) = s.mem.readWord (s.sbN + i))) ∧
    (removeDefined s → ∃ t, exec .remove s = .next t ∧ t.r0.toNat = s.swN ∧
      (s.offN < s.auxN ∨ cleanVector s.mem s.sbN s.auxN →
        ∀ i, i < s.swN → t.mem.readWord (s.dbN + i) = s.mem.readWord (s.sbN + i)))

/-- 43_structural_editor R135: the padding of the result, exactly: `E` bits carried over from the input's padding, the
rest 0, and `E = 0` when the relay is empty; a clean input gives a clean result. -/
def Obligations.SplicePaddingIsExact : Prop :=
  (∀ s, insertDefined s → ∃ t, exec .insert s = .next t ∧
    (∀ k, s.auxN + s.lenN + k < 64 * ceilWords (s.auxN + s.lenN) →
      bitAt t.mem s.dbN (s.auxN + s.lenN + k) =
        (decide (s.offN < s.auxN ∧ k < min ((64 - s.auxN % 64) % 64) ((64 - (s.auxN + s.lenN) % 64) % 64)) &&
          bitAt s.mem s.sbN (s.auxN + k))) ∧
    (cleanVector s.mem s.sbN s.auxN → cleanVector t.mem s.dbN (s.auxN + s.lenN))) ∧
  ∀ s, removeDefined s → ∃ t, exec .remove s = .next t ∧
    (∀ k, s.auxN - s.lenN + k < 64 * ceilWords (s.auxN - s.lenN) →
      bitAt t.mem s.dbN (s.auxN - s.lenN + k) =
        (decide (s.offN + s.lenN < s.auxN ∧
            k < min ((64 - s.auxN % 64) % 64) ((64 - (s.auxN - s.lenN) % 64) % 64)) &&
          bitAt s.mem s.sbN (s.auxN + k))) ∧
    (cleanVector s.mem s.sbN s.auxN → cleanVector t.mem s.dbN (s.auxN - s.lenN))

/-! ## COMPARE (44_comparator) -/

/-- 44_comparator R147 with the values of R146: `R0` is −1, 0 or +1 as the first array, read as a big-endian number, is
less than, equal to or greater than the second; only `R0` and `STATUS` change. -/
def Obligations.CompareOrdersBigEndianNumbers : Prop :=
  ∀ s, compareDefined s → ∃ t, exec .compare s = .next t ∧
    (limbValue s.mem s.sbN s.swN < limbValue s.mem s.dbN s.swN → t.r0 = 0xFFFFFFFFFFFFFFFF#64) ∧
    (limbValue s.mem s.sbN s.swN = limbValue s.mem s.dbN s.swN → t.r0 = 0) ∧
    (limbValue s.mem s.dbN s.swN < limbValue s.mem s.sbN s.swN → t.r0 = 1) ∧
    t.mem = s.mem ∧ shellKept s t ∧ statusCompleted s t

/-- 44_comparator R148: COMPARE answers 0 exactly when every word is equal, and exchanging the arrays negates the
answer. -/
def Obligations.CompareIsConsistent : Prop :=
  ∀ s, compareDefined s → ∃ t, exec .compare s = .next t ∧
    (t.r0 = 0 ↔ ∀ i, i < s.swN → s.mem.readWord (s.sbN + i) = s.mem.readWord (s.dbN + i)) ∧
    ∀ u, u.mem = s.mem → u.aw = s.aw → u.regs.sb = s.regs.db → u.regs.sw = s.regs.dw → u.regs.db = s.regs.sb →
      u.regs.dw = s.regs.sw → ∃ v, exec .compare u = .next v ∧ v.r0 = -t.r0

/-! ## INTERLEAVE (45_interleaver) -/

/-- 45_interleaver R157: bit `i` of vector `j` is emission `e = i × K + K − 1 − j`, at cursor `64 × nw − 1 − e`, bit
`e & 63` of word `nw − 1 − (e >> 6)`; the output as a big-endian number is `Z`, word by word; only the new array,
`R0` and `STATUS` change. -/
def Obligations.InterleaveMatchesTheClosedForm : Prop :=
  ∀ s, interleaveDefined s → ∃ t, exec .interleave s = .next t ∧
    t.r0.toNat = ceilWords (s.lenN * s.auxN) ∧
    (∀ i j e, i < s.lenN → j < s.auxN → e = i * s.auxN + (s.auxN - 1 - j) →
      e < s.lenN * s.auxN ∧
      cursorBit t.mem s.dbN (64 * t.r0.toNat - 1 - e) = vectorBit s.mem s.sbN s.lenN i j ∧
      (t.mem.readWord (s.dbN + (t.r0.toNat - 1 - e / 64))).getLsbD (e % 64) = vectorBit s.mem s.sbN s.lenN i j) ∧
    limbValue t.mem s.dbN t.r0.toNat = zValue s.mem s.sbN s.lenN s.auxN s.lenN ∧
    (∀ w, w < t.r0.toNat → (t.mem.readWord (s.dbN + w)).toNat =
      zValue s.mem s.sbN s.lenN s.auxN s.lenN / 2 ^ (64 * (t.r0.toNat - 1 - w)) % 2 ^ 64) ∧
    bytesKept s.mem t.mem s.dbN (ceilWords (s.lenN * s.auxN)) ∧ shellKept s t ∧ statusCompleted s t

/-- 45_interleaver R158: `Z < 2^total`; the cursor positions below the written region are 0: the top bits of word 0 and
no others. -/
def Obligations.InterleavePaddingIsZero : Prop :=
  ∀ s, interleaveDefined s → ∃ t, exec .interleave s = .next t ∧
    limbValue t.mem s.dbN t.r0.toNat < 2 ^ (s.lenN * s.auxN) ∧
    64 * t.r0.toNat - s.lenN * s.auxN ≤ 63 ∧
    (∀ c, c < 64 * t.r0.toNat - s.lenN * s.auxN → cursorBit t.mem s.dbN c = false) ∧
    (1 ≤ t.r0.toNat → ∀ k, k < 64 → 64 ≤ k + (64 * t.r0.toNat - s.lenN * s.auxN) →
      (t.mem.readWord s.dbN).getLsbD k = false)

/-- 45_interleaver R159: COMPARE of two INTERLEAVE results of the same `B` and `K` orders them as their numbers `Z` and
as the bit sequences are ordered, most-significant source bits first, vector 0 first. -/
def Obligations.InterleavedKeysCompareInZOrder : Prop :=
  ∀ s t s' t' u, exec .interleave s = .next t → s'.mem = t.mem → s'.aw = t.aw → s'.regs.len = s.regs.len →
    s'.regs.aux = s.regs.aux → disjointWords s.dbN t.r0.toNat s'.dbN t.r0.toNat → exec .interleave s' = .next t' →
    u.mem = t'.mem → u.aw = t'.aw → u.regs.sb = s.regs.db → u.regs.sw = t.r0 → u.regs.db = s'.regs.db →
    u.regs.dw = t'.r0 →
    ∃ v, exec .compare u = .next v ∧
      (v.r0 = 0xFFFFFFFFFFFFFFFF#64 ↔
        zValue s.mem s.sbN s.lenN s.auxN s.lenN < zValue s'.mem s'.sbN s.lenN s.auxN s.lenN) ∧
      (v.r0 = 0 ↔ zValue s.mem s.sbN s.lenN s.auxN s.lenN = zValue s'.mem s'.sbN s.lenN s.auxN s.lenN) ∧
      (v.r0 = 1 ↔ zValue s'.mem s'.sbN s.lenN s.auxN s.lenN < zValue s.mem s.sbN s.lenN s.auxN s.lenN) ∧
      v.r0 = BitVec.ofInt 64
        (lexOrder (zSequence s.mem s.sbN s.lenN s.auxN s.lenN) (zSequence s'.mem s'.sbN s.lenN s.auxN s.lenN))

/-- Cursor position `c` is the same physical bit as global bit offset `(c & ~63) + (63 − (c & 63))`, and GET of one bit
there returns it (20_memory R42, R43). -/
def Obligations.CursorPositionIsAMirroredOffset : Prop :=
  (∀ m base c, cursorBit m base c = bitAt m base (c - c % 64 + (63 - c % 64))) ∧
  ∀ s c, s.offN = c - c % 64 + (63 - c % 64) → s.lenN = 1 → getDefined s →
    ∃ t, exec .get s = .next t ∧ t.r0.toNat = (cursorBit s.mem s.sbN c).toNat

/-! ## Host lines (30_encoding R69 to R73) -/

/-- Running the expansion of a pseudo-command whose values fit 64 bits is running its command with the named registers
written and every other register as it was; `CLRERR` clears `ESTICKY` alone (30_encoding R71). What a value that does
not fit stands for is `LinesThatDoNotFitStandForNothing`'s. -/
def Obligations.PseudoCommandsRunTheirCommand : Prop :=
  ∀ (s : State) (rest : List Event),
    (∀ db n, (∀ v ∈ [db, n], v < 2 ^ 64) →
      ∃ es, lineEvents s.aw.val (expandCall (.create db n)) = some es ∧
        core.run 3 { s with pending := es ++ rest } =
          exec .create { s with
            pending := rest
            reply := none
            regs := { s.regs with
              db := BitVec.ofNat 64 db
              len := BitVec.ofNat 64 n } }) ∧
    (∀ a wa b wb, (∀ v ∈ [a, wa, b, wb], v < 2 ^ 64) →
      ∃ es, lineEvents s.aw.val (expandCall (.compare a wa b wb)) = some es ∧
        core.run 5 { s with pending := es ++ rest } =
          exec .compare { s with
            pending := rest
            reply := none
            regs := { s.regs with
              sb := BitVec.ofNat 64 a
              sw := BitVec.ofNat 64 wa
              db := BitVec.ofNat 64 b
              dw := BitVec.ofNat 64 wb } }) ∧
    (∀ sb sw off n, (∀ v ∈ [sb, sw, off, n], v < 2 ^ 64) →
      ∃ es, lineEvents s.aw.val (expandCall (.get sb sw off n)) = some es ∧
        core.run 5 { s with pending := es ++ rest } =
          exec .get { s with
            pending := rest
            reply := none
            regs := { s.regs with
              sb := BitVec.ofNat 64 sb
              sw := BitVec.ofNat 64 sw
              off := BitVec.ofNat 64 off
              len := BitVec.ofNat 64 n } }) ∧
    (∀ db dw val off n, (∀ v ∈ [db, dw, val, off, n], v < 2 ^ 64) →
      ∃ es, lineEvents s.aw.val (expandCall (.overwrite db dw val off n)) = some es ∧
        core.run 6 { s with pending := es ++ rest } =
          exec .overwrite { s with
            pending := rest
            reply := none
            regs := { s.regs with
              db := BitVec.ofNat 64 db
              dw := BitVec.ofNat 64 dw
              val := BitVec.ofNat 64 val
              off := BitVec.ofNat 64 off
              len := BitVec.ofNat 64 n } }) ∧
    (∀ sb sw so db dw d n, (∀ v ∈ [sb, sw, so, db, dw, d, n], v < 2 ^ 64) →
      ∃ es, lineEvents s.aw.val (expandCall (.copy sb sw so db dw d n)) = some es ∧
        core.run 8 { s with pending := es ++ rest } =
          exec .copy { s with
            pending := rest
            reply := none
            regs := { s.regs with
              sb := BitVec.ofNat 64 sb
              sw := BitVec.ofNat 64 sw
              off := BitVec.ofNat 64 so
              db := BitVec.ofNat 64 db
              dw := BitVec.ofNat 64 dw
              aux := BitVec.ofNat 64 d
              len := BitVec.ofNat 64 n } }) ∧
    (∀ sb sw l off n db, (∀ v ∈ [sb, sw, l, off, n, db], v < 2 ^ 64) →
      ∃ es, lineEvents s.aw.val (expandCall (.insert sb sw l off n db)) = some es ∧
        core.run 7 { s with pending := es ++ rest } =
          exec .insert { s with
            pending := rest
            reply := none
            regs := { s.regs with
              sb := BitVec.ofNat 64 sb
              sw := BitVec.ofNat 64 sw
              aux := BitVec.ofNat 64 l
              off := BitVec.ofNat 64 off
              len := BitVec.ofNat 64 n
              db := BitVec.ofNat 64 db } }) ∧
    (∀ sb sw l off n db, (∀ v ∈ [sb, sw, l, off, n, db], v < 2 ^ 64) →
      ∃ es, lineEvents s.aw.val (expandCall (.remove sb sw l off n db)) = some es ∧
        core.run 7 { s with pending := es ++ rest } =
          exec .remove { s with
            pending := rest
            reply := none
            regs := { s.regs with
              sb := BitVec.ofNat 64 sb
              sw := BitVec.ofNat 64 sw
              aux := BitVec.ofNat 64 l
              off := BitVec.ofNat 64 off
              len := BitVec.ofNat 64 n
              db := BitVec.ofNat 64 db } }) ∧
    (∀ sb sw b k db, (∀ v ∈ [sb, sw, b, k, db], v < 2 ^ 64) →
      ∃ es, lineEvents s.aw.val (expandCall (.interleave sb sw b k db)) = some es ∧
        core.run 6 { s with pending := es ++ rest } =
          exec .interleave { s with
            pending := rest
            reply := none
            regs := { s.regs with
              sb := BitVec.ofNat 64 sb
              sw := BitVec.ofNat 64 sw
              len := BitVec.ofNat 64 b
              aux := BitVec.ofNat 64 k
              db := BitVec.ofNat 64 db } }) ∧
    ∃ es, lineEvents s.aw.val (expandCall .clrErr) = some es ∧
      core.run 1 { s with pending := es ++ rest } =
        .next { s with
          pending := rest
          reply := none
          status := s.status &&& ~~~0x10#64 }

/-- A printed command word reads back (30_encoding R69, R70, R73): a legal word prints as its mnemonic, which after
`ISSUE` is the line that issues it; an illegal word prints as the line that issues it, eight hexadecimal digits. -/
def Obligations.PrintedHexReadsBack : Prop :=
  (∀ w : CommandWord, readLiteral ("0x".toList ++ hexDigits 8 w.toNat) = some w.toNat) ∧
  ∀ (aw : Nat) (w : CommandWord),
    (∀ i, decode w = .ok i → disassemble w = mnemonicOf i ∧ readLine aw ("ISSUE " ++ disassemble w) = some [.issue i] ∧
      lineEvents aw [.issue i] = some [.issue w]) ∧
    ((∀ i, decode w ≠ .ok i) → readLine aw (disassemble w) = some [.issueW w.toNat] ∧
      lineEvents aw [.issueW w.toNat] = some [.issue w])

/-- "A value is taken modulo nothing, it must fit the target" (30_encoding R70, 93_implementation_defined U12): a line
whose value does not fit stands for no transaction, and no text reads as one; a line that fits stands for the
transaction with that very value, which the core never refuses. -/
def Obligations.LinesThatDoNotFitStandForNothing : Prop :=
  (∀ aw r v, (10 < r ∨ 2 ^ 64 ≤ v → lineEvent aw (.wr r v) = none) ∧
    (r ≤ 10 → v < 2 ^ 64 → ∃ x, lineEvent aw (.wr r v) = some (.wr r x) ∧ x.toNat = v)) ∧
  (∀ aw r, (10 < r → lineEvent aw (.rd r) = none) ∧ (r ≤ 10 → lineEvent aw (.rd r) = some (.rd r))) ∧
  (∀ aw a v, (2 ^ aw ≤ a ∨ 2 ^ 64 ≤ v → lineEvent aw (.wrw a v) = none) ∧
    (a < 2 ^ aw → v < 2 ^ 64 → ∃ x, lineEvent aw (.wrw a v) = some (.wrw a x) ∧ x.toNat = v)) ∧
  (∀ aw a, (2 ^ aw ≤ a → lineEvent aw (.rdw a) = none) ∧ (a < 2 ^ aw → lineEvent aw (.rdw a) = some (.rdw a))) ∧
  (∀ aw i, lineEvent aw (.issue i) = some (.issue (encode i))) ∧
  (∀ aw v, (2 ^ 32 ≤ v → lineEvent aw (.issueW v) = none) ∧
    (v < 2 ^ 32 → ∃ w, lineEvent aw (.issueW v) = some (.issue w) ∧ w.toNat = v)) ∧
  (∀ aw ls, (lineEvents aw ls = none ↔ ∃ l ∈ ls, lineEvent aw l = none) ∧
    ∀ es, lineEvents aw ls = some es → es.map some = ls.map (lineEvent aw) ∧ ∀ e ∈ es, e.wf aw = true) ∧
  ∀ aw text ls, readLine aw text = some ls → ∀ l ∈ ls, lineEvent aw l ≠ none
end

