-- ==== Sys2Proof/Laws/Bits.lean ====
section
/-! SUPPORT. The word primitives bit by bit and as numbers, the word counts, and the fields of `STATUS`. -/

namespace Sys2Proof.Machine

/-! ## Word primitives (00_scope R12, R13) -/

@[simp] theorem getLsbD_lsr (w : Word) (s i : Nat) : (lsr w s).getLsbD i = w.getLsbD (s + i) := by
  simp [lsr]

@[simp] theorem getLsbD_lsl (w : Word) (s i : Nat) :
    (lsl w s).getLsbD i = (decide (i < 64) && (!decide (i < s) && w.getLsbD (i - s))) := by
  simp [lsl, Bool.and_assoc]

@[simp] theorem getLsbD_maskBelow (n i : Nat) : (maskBelow n).getLsbD i = (decide (i < 64) && decide (i < n)) := by
  simp [maskBelow, BitVec.getLsbD_ofNat, Nat.testBit_two_pow_sub_one]

theorem toNat_lsr (w : Word) (s : Nat) : (lsr w s).toNat = w.toNat / 2 ^ s := by
  simp [lsr, Nat.shiftRight_eq_div_pow]

theorem toNat_lsl (w : Word) (s : Nat) : (lsl w s).toNat = w.toNat * 2 ^ s % 2 ^ 64 := by
  simp [lsl, Nat.shiftLeft_eq]

theorem toNat_maskBelow (n : Nat) (h : n ≤ 64) : (maskBelow n).toNat = 2 ^ n - 1 := by
  have : 2 ^ n ≤ 2 ^ 64 := Nat.pow_le_pow_right (by decide) h
  simp only [maskBelow, BitVec.toNat_ofNat]
  exact Nat.mod_eq_of_lt (by omega)

/-! ## Word counts and splits (00_scope R14, 20_memory R46) -/

theorem wordsFor_eq (n : Nat) : wordsFor n = Safety.ceilWords n := by
  unfold wordsFor Safety.ceilWords
  split <;> omega

/-- An offset below the length lies in a word of the array. -/
theorem div_lt_ceilWords {g n : Nat} (h : g < n) : g / 64 < Safety.ceilWords n := by
  unfold Safety.ceilWords
  omega

theorem wordIdx_bitIdx (o : Nat) : 64 * wordIdx o + bitIdx o = o := Nat.div_add_mod o 64

theorem bitIdx_lt (o : Nat) : bitIdx o < 64 := Nat.mod_lt _ (by decide)

/-! ## The chunk of the bit-mover (42_bit_mover R112) -/

theorem shareNoWord_iff (a n b m : Nat) : shareNoWord a n b m = true ↔ Safety.disjointWords a n b m := by
  simp [shareNoWord, Safety.disjointWords, or_assoc]

theorem rangeFits_iff (off len words : Nat) : rangeFits off len words = true ↔ Safety.rangeInside off len words := by
  simp only [rangeFits, Bool.and_eq_true, Bool.or_eq_true, decide_eq_true_eq]
  simp only [wordIdx, lowPart, bitIdx, Safety.rangeInside]
  constructor
  · rintro ⟨h, h' | h'⟩
    · exact ⟨h, fun _ => by omega⟩
    · exact ⟨h, fun _ => h'⟩
  · rintro ⟨h, h'⟩
    refine ⟨h, ?_⟩
    rcases Nat.lt_or_ge 64 (off % 64 + len) with h'' | h''
    · exact .inr (h' h'')
    · exact .inl (by omega)

theorem arrayFits_iff (s : State) (base words : Nat) : arrayFits s base words = true ↔ Safety.inMemory s base words := by
  simp only [arrayFits, decide_eq_true_eq]
  rfl

/-! ## `STATUS` (10_state R26) -/

theorem setErr_eq (st : Word) (c : BitVec 4) : setErr st c = (st &&& ~~~0xF#64) ||| c.setWidth 64 := rfl

theorem setErr_okCode (st : Word) : setErr st okCode = st &&& ~~~0xF#64 := by
  simp [setErr, okCode, errMask]

theorem getLsbD_errMask (i : Nat) : errMask.getLsbD i = decide (i < 4) := by
  rcases Nat.lt_or_ge i 64 with h | h
  · interval_cases i <;> rfl
  · rw [BitVec.getLsbD_of_ge _ _ h]; simp; omega

theorem getLsbD_stickyMask (i : Nat) : stickyMask.getLsbD i = decide (i = 4) := by
  rcases Nat.lt_or_ge i 64 with h | h
  · interval_cases i <;> rfl
  · rw [BitVec.getLsbD_of_ge _ _ h]; simp; omega

theorem getLsbD_setErr (st : Word) (c : BitVec 4) (i : Nat) :
    (setErr st c).getLsbD i = if i < 4 then c.getLsbD i else st.getLsbD i := by
  rcases Nat.lt_or_ge i 64 with h | h
  · simp only [setErr, BitVec.getLsbD_or, BitVec.getLsbD_and, BitVec.getLsbD_not, getLsbD_errMask,
      BitVec.getLsbD_setWidth, h, decide_true, Bool.true_and]
    split
    · simp [*]
    · simp [*, BitVec.getLsbD_of_ge c i (by omega)]
  · rw [BitVec.getLsbD_of_ge _ _ h, if_neg (by omega), BitVec.getLsbD_of_ge _ _ h]

theorem getLsbD_setSticky (st : Word) (i : Nat) : (setSticky st).getLsbD i = (st.getLsbD i || decide (i = 4)) := by
  simp [setSticky, getLsbD_stickyMask]

theorem getLsbD_clearSticky (st : Word) (i : Nat) :
    (clearSticky st).getLsbD i = (st.getLsbD i && !decide (i = 4)) := by
  rcases Nat.lt_or_ge i 64 with h | h
  · simp only [clearSticky, BitVec.getLsbD_and, BitVec.getLsbD_not, getLsbD_stickyMask, h, decide_true, Bool.true_and]
  · rw [BitVec.getLsbD_of_ge _ _ h, BitVec.getLsbD_of_ge _ _ h]; rfl

@[simp] theorem statusErr_setErr (st : Word) (c : BitVec 4) : statusErr (setErr st c) = c := by
  apply BitVec.eq_of_getLsbD_eq
  intro i hi
  simp [statusErr, getLsbD_setErr, hi]

@[simp] theorem statusSticky_setErr (st : Word) (c : BitVec 4) : statusSticky (setErr st c) = statusSticky st := by
  simp only [statusSticky, getLsbD_setErr, Nat.lt_irrefl, if_false]

@[simp] theorem statusErr_setSticky (st : Word) : statusErr (setSticky st) = statusErr st := by
  apply BitVec.eq_of_getLsbD_eq
  intro i hi
  have : i ≠ 4 := by omega
  simp [statusErr, getLsbD_setSticky, hi, this]

@[simp] theorem statusSticky_setSticky (st : Word) : statusSticky (setSticky st) = true := by
  simp only [statusSticky, getLsbD_setSticky, decide_true, Bool.or_true]

@[simp] theorem statusErr_clearSticky (st : Word) : statusErr (clearSticky st) = statusErr st := by
  apply BitVec.eq_of_getLsbD_eq
  intro i hi
  have : i ≠ 4 := by omega
  simp [statusErr, getLsbD_clearSticky, hi, this]

@[simp] theorem statusSticky_clearSticky (st : Word) : statusSticky (clearSticky st) = false := by
  simp only [statusSticky, getLsbD_clearSticky, decide_true, Bool.not_true, Bool.and_false]

end Sys2Proof.Machine
end

