-- ==== Sys2Proof/Laws/State.lean ====
section
/-! SUPPORT. One lemma per field and per update of the state, and what the named operations on the state do to each
field. -/

namespace Sys2Proof.Machine

@[simp] theorem State.setMem_regs (s : State) (m : Memory) : (s.setMem m).regs = s.regs := rfl
@[simp] theorem State.setMem_r0 (s : State) (m : Memory) : (s.setMem m).r0 = s.r0 := rfl
@[simp] theorem State.setMem_status (s : State) (m : Memory) : (s.setMem m).status = s.status := rfl
@[simp] theorem State.setMem_mem (s : State) (m : Memory) : (s.setMem m).mem = m := rfl
@[simp] theorem State.setMem_aw (s : State) (m : Memory) : (s.setMem m).aw = s.aw := rfl
@[simp] theorem State.setMem_pending (s : State) (m : Memory) : (s.setMem m).pending = s.pending := rfl
@[simp] theorem State.setMem_reply (s : State) (m : Memory) : (s.setMem m).reply = s.reply := rfl

@[simp] theorem State.setR0_regs (s : State) (v : Word) : (s.setR0 v).regs = s.regs := rfl
@[simp] theorem State.setR0_r0 (s : State) (v : Word) : (s.setR0 v).r0 = v := rfl
@[simp] theorem State.setR0_status (s : State) (v : Word) : (s.setR0 v).status = s.status := rfl
@[simp] theorem State.setR0_mem (s : State) (v : Word) : (s.setR0 v).mem = s.mem := rfl
@[simp] theorem State.setR0_aw (s : State) (v : Word) : (s.setR0 v).aw = s.aw := rfl
@[simp] theorem State.setR0_pending (s : State) (v : Word) : (s.setR0 v).pending = s.pending := rfl
@[simp] theorem State.setR0_reply (s : State) (v : Word) : (s.setR0 v).reply = s.reply := rfl

@[simp] theorem State.setStatus_regs (s : State) (st : Word) : (s.setStatus st).regs = s.regs := rfl
@[simp] theorem State.setStatus_r0 (s : State) (st : Word) : (s.setStatus st).r0 = s.r0 := rfl
@[simp] theorem State.setStatus_status (s : State) (st : Word) : (s.setStatus st).status = st := rfl
@[simp] theorem State.setStatus_mem (s : State) (st : Word) : (s.setStatus st).mem = s.mem := rfl
@[simp] theorem State.setStatus_aw (s : State) (st : Word) : (s.setStatus st).aw = s.aw := rfl
@[simp] theorem State.setStatus_pending (s : State) (st : Word) : (s.setStatus st).pending = s.pending := rfl
@[simp] theorem State.setStatus_reply (s : State) (st : Word) : (s.setStatus st).reply = s.reply := rfl

@[simp] theorem State.setRegs_regs (s : State) (r : OperandRegs) : (s.setRegs r).regs = r := rfl
@[simp] theorem State.setRegs_r0 (s : State) (r : OperandRegs) : (s.setRegs r).r0 = s.r0 := rfl
@[simp] theorem State.setRegs_status (s : State) (r : OperandRegs) : (s.setRegs r).status = s.status := rfl
@[simp] theorem State.setRegs_mem (s : State) (r : OperandRegs) : (s.setRegs r).mem = s.mem := rfl
@[simp] theorem State.setRegs_aw (s : State) (r : OperandRegs) : (s.setRegs r).aw = s.aw := rfl
@[simp] theorem State.setRegs_pending (s : State) (r : OperandRegs) : (s.setRegs r).pending = s.pending := rfl
@[simp] theorem State.setRegs_reply (s : State) (r : OperandRegs) : (s.setRegs r).reply = s.reply := rfl

@[simp] theorem State.setReply_regs (s : State) (v : Option Word) : (s.setReply v).regs = s.regs := rfl
@[simp] theorem State.setReply_r0 (s : State) (v : Option Word) : (s.setReply v).r0 = s.r0 := rfl
@[simp] theorem State.setReply_status (s : State) (v : Option Word) : (s.setReply v).status = s.status := rfl
@[simp] theorem State.setReply_mem (s : State) (v : Option Word) : (s.setReply v).mem = s.mem := rfl
@[simp] theorem State.setReply_aw (s : State) (v : Option Word) : (s.setReply v).aw = s.aw := rfl
@[simp] theorem State.setReply_pending (s : State) (v : Option Word) : (s.setReply v).pending = s.pending := rfl
@[simp] theorem State.setReply_reply (s : State) (v : Option Word) : (s.setReply v).reply = v := rfl

@[simp] theorem State.setPending_regs (s : State) (es : List Event) : (s.setPending es).regs = s.regs := rfl
@[simp] theorem State.setPending_r0 (s : State) (es : List Event) : (s.setPending es).r0 = s.r0 := rfl
@[simp] theorem State.setPending_status (s : State) (es : List Event) : (s.setPending es).status = s.status := rfl
@[simp] theorem State.setPending_mem (s : State) (es : List Event) : (s.setPending es).mem = s.mem := rfl
@[simp] theorem State.setPending_aw (s : State) (es : List Event) : (s.setPending es).aw = s.aw := rfl
@[simp] theorem State.setPending_pending (s : State) (es : List Event) : (s.setPending es).pending = es := rfl
@[simp] theorem State.setPending_reply (s : State) (es : List Event) : (s.setPending es).reply = s.reply := rfl

@[simp] theorem State.complete_regs (s : State) : s.complete.regs = s.regs := rfl
@[simp] theorem State.complete_r0 (s : State) : s.complete.r0 = s.r0 := rfl
@[simp] theorem State.complete_status (s : State) : s.complete.status = setErr s.status okCode := rfl
@[simp] theorem State.complete_mem (s : State) : s.complete.mem = s.mem := rfl
@[simp] theorem State.complete_aw (s : State) : s.complete.aw = s.aw := rfl
@[simp] theorem State.complete_pending (s : State) : s.complete.pending = s.pending := rfl
@[simp] theorem State.complete_reply (s : State) : s.complete.reply = s.reply := rfl

@[simp] theorem State.raise_regs (s : State) (c : Condition) : (s.raise c).regs = s.regs := rfl
@[simp] theorem State.raise_r0 (s : State) (c : Condition) : (s.raise c).r0 = s.r0 := rfl
@[simp] theorem State.raise_status (s : State) (c : Condition) : (s.raise c).status = setSticky (setErr s.status (conditionCode c)) := rfl
@[simp] theorem State.raise_mem (s : State) (c : Condition) : (s.raise c).mem = s.mem := rfl
@[simp] theorem State.raise_aw (s : State) (c : Condition) : (s.raise c).aw = s.aw := rfl
@[simp] theorem State.raise_pending (s : State) (c : Condition) : (s.raise c).pending = s.pending := rfl
@[simp] theorem State.raise_reply (s : State) (c : Condition) : (s.raise c).reply = s.reply := rfl

@[simp] theorem State.hostWriteStatus_regs (s : State) (v : Word) : (s.hostWriteStatus v).regs = s.regs := rfl
@[simp] theorem State.hostWriteStatus_r0 (s : State) (v : Word) : (s.hostWriteStatus v).r0 = s.r0 := rfl
@[simp] theorem State.hostWriteStatus_status (s : State) (v : Word) : (s.hostWriteStatus v).status = hostStatusWrite s.status v := rfl
@[simp] theorem State.hostWriteStatus_mem (s : State) (v : Word) : (s.hostWriteStatus v).mem = s.mem := rfl
@[simp] theorem State.hostWriteStatus_aw (s : State) (v : Word) : (s.hostWriteStatus v).aw = s.aw := rfl
@[simp] theorem State.hostWriteStatus_pending (s : State) (v : Word) : (s.hostWriteStatus v).pending = s.pending := rfl
@[simp] theorem State.hostWriteStatus_reply (s : State) (v : Word) : (s.hostWriteStatus v).reply = s.reply := rfl

@[simp] theorem State.afterReset_regs (s : State) (contents : List (Nat × Word)) :
    (s.afterReset contents).regs = OperandRegs.zero := rfl
@[simp] theorem State.afterReset_r0 (s : State) (contents : List (Nat × Word)) :
    (s.afterReset contents).r0 = 0 := rfl
@[simp] theorem State.afterReset_status (s : State) (contents : List (Nat × Word)) :
    (s.afterReset contents).status = 0 := rfl
@[simp] theorem State.afterReset_mem (s : State) (contents : List (Nat × Word)) :
    (s.afterReset contents).mem = contentsMem contents := rfl
@[simp] theorem State.afterReset_aw (s : State) (contents : List (Nat × Word)) :
    (s.afterReset contents).aw = s.aw := rfl
@[simp] theorem State.afterReset_pending (s : State) (contents : List (Nat × Word)) :
    (s.afterReset contents).pending = s.pending := rfl
@[simp] theorem State.afterReset_reply (s : State) (contents : List (Nat × Word)) :
    (s.afterReset contents).reply = none := rfl

/-! Operands of a state after an update that is not to the operand registers, and the size of memory. -/

@[simp] theorem State.setMem_sbN (s : State) (m : Memory) : (s.setMem m).sbN = s.sbN := rfl
@[simp] theorem State.setMem_swN (s : State) (m : Memory) : (s.setMem m).swN = s.swN := rfl
@[simp] theorem State.setMem_dbN (s : State) (m : Memory) : (s.setMem m).dbN = s.dbN := rfl
@[simp] theorem State.setMem_dwN (s : State) (m : Memory) : (s.setMem m).dwN = s.dwN := rfl
@[simp] theorem State.setMem_offN (s : State) (m : Memory) : (s.setMem m).offN = s.offN := rfl
@[simp] theorem State.setMem_auxN (s : State) (m : Memory) : (s.setMem m).auxN = s.auxN := rfl
@[simp] theorem State.setMem_lenN (s : State) (m : Memory) : (s.setMem m).lenN = s.lenN := rfl
@[simp] theorem State.setMem_memWords (s : State) (m : Memory) : (s.setMem m).memWords = s.memWords := rfl
@[simp] theorem State.setR0_sbN (s : State) (v : Word) : (s.setR0 v).sbN = s.sbN := rfl
@[simp] theorem State.setR0_swN (s : State) (v : Word) : (s.setR0 v).swN = s.swN := rfl
@[simp] theorem State.setR0_dbN (s : State) (v : Word) : (s.setR0 v).dbN = s.dbN := rfl
@[simp] theorem State.setR0_dwN (s : State) (v : Word) : (s.setR0 v).dwN = s.dwN := rfl
@[simp] theorem State.setR0_offN (s : State) (v : Word) : (s.setR0 v).offN = s.offN := rfl
@[simp] theorem State.setR0_auxN (s : State) (v : Word) : (s.setR0 v).auxN = s.auxN := rfl
@[simp] theorem State.setR0_lenN (s : State) (v : Word) : (s.setR0 v).lenN = s.lenN := rfl
@[simp] theorem State.setR0_memWords (s : State) (v : Word) : (s.setR0 v).memWords = s.memWords := rfl
@[simp] theorem State.setStatus_sbN (s : State) (st : Word) : (s.setStatus st).sbN = s.sbN := rfl
@[simp] theorem State.setStatus_swN (s : State) (st : Word) : (s.setStatus st).swN = s.swN := rfl
@[simp] theorem State.setStatus_dbN (s : State) (st : Word) : (s.setStatus st).dbN = s.dbN := rfl
@[simp] theorem State.setStatus_dwN (s : State) (st : Word) : (s.setStatus st).dwN = s.dwN := rfl
@[simp] theorem State.setStatus_offN (s : State) (st : Word) : (s.setStatus st).offN = s.offN := rfl
@[simp] theorem State.setStatus_auxN (s : State) (st : Word) : (s.setStatus st).auxN = s.auxN := rfl
@[simp] theorem State.setStatus_lenN (s : State) (st : Word) : (s.setStatus st).lenN = s.lenN := rfl
@[simp] theorem State.setStatus_memWords (s : State) (st : Word) : (s.setStatus st).memWords = s.memWords := rfl
@[simp] theorem State.setReply_sbN (s : State) (v : Option Word) : (s.setReply v).sbN = s.sbN := rfl
@[simp] theorem State.setReply_swN (s : State) (v : Option Word) : (s.setReply v).swN = s.swN := rfl
@[simp] theorem State.setReply_dbN (s : State) (v : Option Word) : (s.setReply v).dbN = s.dbN := rfl
@[simp] theorem State.setReply_dwN (s : State) (v : Option Word) : (s.setReply v).dwN = s.dwN := rfl
@[simp] theorem State.setReply_offN (s : State) (v : Option Word) : (s.setReply v).offN = s.offN := rfl
@[simp] theorem State.setReply_auxN (s : State) (v : Option Word) : (s.setReply v).auxN = s.auxN := rfl
@[simp] theorem State.setReply_lenN (s : State) (v : Option Word) : (s.setReply v).lenN = s.lenN := rfl
@[simp] theorem State.setReply_memWords (s : State) (v : Option Word) : (s.setReply v).memWords = s.memWords := rfl
@[simp] theorem State.setPending_sbN (s : State) (es : List Event) : (s.setPending es).sbN = s.sbN := rfl
@[simp] theorem State.setPending_swN (s : State) (es : List Event) : (s.setPending es).swN = s.swN := rfl
@[simp] theorem State.setPending_dbN (s : State) (es : List Event) : (s.setPending es).dbN = s.dbN := rfl
@[simp] theorem State.setPending_dwN (s : State) (es : List Event) : (s.setPending es).dwN = s.dwN := rfl
@[simp] theorem State.setPending_offN (s : State) (es : List Event) : (s.setPending es).offN = s.offN := rfl
@[simp] theorem State.setPending_auxN (s : State) (es : List Event) : (s.setPending es).auxN = s.auxN := rfl
@[simp] theorem State.setPending_lenN (s : State) (es : List Event) : (s.setPending es).lenN = s.lenN := rfl
@[simp] theorem State.setPending_memWords (s : State) (es : List Event) : (s.setPending es).memWords = s.memWords := rfl
@[simp] theorem State.complete_sbN (s : State) : s.complete.sbN = s.sbN := rfl
@[simp] theorem State.complete_swN (s : State) : s.complete.swN = s.swN := rfl
@[simp] theorem State.complete_dbN (s : State) : s.complete.dbN = s.dbN := rfl
@[simp] theorem State.complete_dwN (s : State) : s.complete.dwN = s.dwN := rfl
@[simp] theorem State.complete_offN (s : State) : s.complete.offN = s.offN := rfl
@[simp] theorem State.complete_auxN (s : State) : s.complete.auxN = s.auxN := rfl
@[simp] theorem State.complete_lenN (s : State) : s.complete.lenN = s.lenN := rfl
@[simp] theorem State.complete_memWords (s : State) : s.complete.memWords = s.memWords := rfl
@[simp] theorem State.raise_sbN (s : State) (c : Condition) : (s.raise c).sbN = s.sbN := rfl
@[simp] theorem State.raise_swN (s : State) (c : Condition) : (s.raise c).swN = s.swN := rfl
@[simp] theorem State.raise_dbN (s : State) (c : Condition) : (s.raise c).dbN = s.dbN := rfl
@[simp] theorem State.raise_dwN (s : State) (c : Condition) : (s.raise c).dwN = s.dwN := rfl
@[simp] theorem State.raise_offN (s : State) (c : Condition) : (s.raise c).offN = s.offN := rfl
@[simp] theorem State.raise_auxN (s : State) (c : Condition) : (s.raise c).auxN = s.auxN := rfl
@[simp] theorem State.raise_lenN (s : State) (c : Condition) : (s.raise c).lenN = s.lenN := rfl
@[simp] theorem State.raise_memWords (s : State) (c : Condition) : (s.raise c).memWords = s.memWords := rfl
@[simp] theorem State.hostWriteStatus_sbN (s : State) (v : Word) : (s.hostWriteStatus v).sbN = s.sbN := rfl
@[simp] theorem State.hostWriteStatus_swN (s : State) (v : Word) : (s.hostWriteStatus v).swN = s.swN := rfl
@[simp] theorem State.hostWriteStatus_dbN (s : State) (v : Word) : (s.hostWriteStatus v).dbN = s.dbN := rfl
@[simp] theorem State.hostWriteStatus_dwN (s : State) (v : Word) : (s.hostWriteStatus v).dwN = s.dwN := rfl
@[simp] theorem State.hostWriteStatus_offN (s : State) (v : Word) : (s.hostWriteStatus v).offN = s.offN := rfl
@[simp] theorem State.hostWriteStatus_auxN (s : State) (v : Word) : (s.hostWriteStatus v).auxN = s.auxN := rfl
@[simp] theorem State.hostWriteStatus_lenN (s : State) (v : Word) : (s.hostWriteStatus v).lenN = s.lenN := rfl
@[simp] theorem State.hostWriteStatus_memWords (s : State) (v : Word) : (s.hostWriteStatus v).memWords = s.memWords := rfl

/-! Operand registers by number. -/

theorem OperandRegs.read?_some_iff (r : OperandRegs) (i : Nat) : (r.read? i).isSome ↔ i ≤ 7 := by
  rcases i with _ | _ | _ | _ | _ | _ | _ | _ | i <;> simp [OperandRegs.read?]

theorem OperandRegs.write?_some_iff (r : OperandRegs) (i : Nat) (v : Word) : (r.write? i v).isSome ↔ i ≤ 7 := by
  rcases i with _ | _ | _ | _ | _ | _ | _ | _ | i <;> simp [OperandRegs.write?]

/-- A register number above 7 is no operand register. -/
theorem OperandRegs.write?_none (r : OperandRegs) (i : Nat) (v : Word) (h : 7 < i) : r.write? i v = none := by
  have := (OperandRegs.write?_some_iff r i v).not.2 (by omega)
  simpa using this

/-- A written operand register reads as written; the others read as before. -/
theorem OperandRegs.read?_write? (r r' : OperandRegs) (i j : Nat) (v : Word) (h : r.write? i v = some r') :
    r'.read? j = if j = i then some v else r.read? j := by
  rcases i with _ | _ | _ | _ | _ | _ | _ | _ | i <;>
    first
    | (simp [OperandRegs.write?] at h; done)
    | (simp only [OperandRegs.write?, Option.some.injEq] at h
       subst h
       rcases j with _ | _ | _ | _ | _ | _ | _ | _ | j <;> simp [OperandRegs.read?])

end Sys2Proof.Machine
end

