-- ==== Sys2Proof/Laws/Memory.lean ====
section
/-! SUPPORT. The laws of memory: a read after a write, byte by byte and word by word; that every write keeps the
canonical form and the bound of `WMEM`; that canonical memories that read the same are equal. -/

namespace Sys2Proof.Machine

/-! ## Bytes -/

@[simp] theorem Memory.readByte_nil (b : Nat) : Memory.readByte [] b = Config.unlistedByte := rfl

theorem Memory.readByte_cons (k : Nat) (v : BitVec 8) (m : Memory) (b : Nat) :
    Memory.readByte ((k, v) :: m) b = if k = b then v else Memory.readByte m b := rfl

theorem Memory.readByte_eraseByte (m : Memory) (b c : Nat) :
    Memory.readByte (Memory.eraseByte b m) c = if c = b then Config.unlistedByte else Memory.readByte m c := by
  induction m with
  | nil => simp [Memory.eraseByte]
  | cons x m ih =>
    obtain ⟨k, v⟩ := x
    rcases eq_or_ne k b with rfl | hk
    · rcases eq_or_ne c k with rfl | hc
      · simp [Memory.eraseByte, ih]
      · simp [Memory.eraseByte, ih, Memory.readByte_cons, hc, hc.symm]
    · simp only [Memory.eraseByte, hk, if_false, Memory.readByte_cons, ih]
      rcases eq_or_ne k c with rfl | hc <;> simp [*]

theorem Memory.readByte_insertByte (m : Memory) (b c : Nat) (v : BitVec 8)
    (hb : ∀ x ∈ m, x.1 ≠ b) :
    Memory.readByte (Memory.insertByte b v m) c = if c = b then v else Memory.readByte m c := by
  induction m with
  | nil => simp [Memory.insertByte, Memory.readByte_cons, eq_comm]
  | cons x m ih =>
    obtain ⟨k, u⟩ := x
    have hk : k ≠ b := hb (k, u) (by simp)
    simp only [Memory.insertByte]
    split
    · simp [Memory.readByte_cons, eq_comm]
    · rw [Memory.readByte_cons, ih fun x hx => hb x (by simp [hx])]
      rcases eq_or_ne k c with rfl | hc
      · simp [Memory.readByte_cons, hk]
      · simp [Memory.readByte_cons, hc]

theorem Memory.ne_of_mem_eraseByte {m : Memory} {b : Nat} {x : Host.Cell} (h : x ∈ Memory.eraseByte b m) :
    x.1 ≠ b ∧ x ∈ m := by
  induction m with
  | nil => simp [Memory.eraseByte] at h
  | cons y m ih =>
    obtain ⟨k, v⟩ := y
    simp only [Memory.eraseByte] at h
    split at h
    · exact ⟨(ih h).1, by simp [(ih h).2]⟩
    · rcases List.mem_cons.1 h with rfl | h
      · exact ⟨by assumption, by simp⟩
      · exact ⟨(ih h).1, by simp [(ih h).2]⟩

/-- A read after a write: the byte written, and every other byte as before. -/
theorem Memory.readByte_writeByte (m : Memory) (b c : Nat) (v : BitVec 8) :
    (m.writeByte b v).readByte c = if c = b then v else m.readByte c := by
  unfold Memory.writeByte
  split
  · rename_i h; rw [Memory.readByte_eraseByte, h]
  · rw [Memory.readByte_insertByte _ _ _ _ fun x hx => (Memory.ne_of_mem_eraseByte hx).1, Memory.readByte_eraseByte]
    split <;> rfl

/-! ## The canonical form -/

theorem Memory.wfFrom_mono {m : Memory} {lo lo' : Nat} (h : lo' ≤ lo) (hm : Memory.wfFrom lo m = true) :
    Memory.wfFrom lo' m = true := by
  cases m with
  | nil => rfl
  | cons x m =>
    simp only [Memory.wfFrom, Bool.and_eq_true, decide_eq_true_eq] at hm ⊢
    exact ⟨⟨by omega, hm.1.2⟩, hm.2⟩

theorem Memory.wfFrom_eraseByte {m : Memory} {lo : Nat} (b : Nat) (h : Memory.wfFrom lo m = true) :
    Memory.wfFrom lo (Memory.eraseByte b m) = true := by
  induction m generalizing lo with
  | nil => rfl
  | cons x m ih =>
    obtain ⟨k, v⟩ := x
    simp only [Memory.wfFrom, Bool.and_eq_true, decide_eq_true_eq] at h
    simp only [Memory.eraseByte]
    split
    · exact Memory.wfFrom_mono (by omega) (ih h.2)
    · simp only [Memory.wfFrom, Bool.and_eq_true, decide_eq_true_eq]
      exact ⟨h.1, ih h.2⟩

theorem Memory.wfFrom_insertByte {m : Memory} {lo b : Nat} {v : BitVec 8} (hv : v ≠ Config.unlistedByte) (hlo : lo ≤ b)
    (hb : ∀ x ∈ m, x.1 ≠ b) (h : Memory.wfFrom lo m = true) : Memory.wfFrom lo (Memory.insertByte b v m) = true := by
  induction m generalizing lo with
  | nil => simpa [Memory.insertByte, Memory.wfFrom, hlo] using hv
  | cons x m ih =>
    obtain ⟨k, u⟩ := x
    have hk : k ≠ b := hb (k, u) (by simp)
    simp only [Memory.wfFrom, Bool.and_eq_true, decide_eq_true_eq] at h
    simp only [Memory.insertByte]
    split
    · simp only [Memory.wfFrom, Bool.and_eq_true, decide_eq_true_eq]
      exact ⟨⟨hlo, by simpa using hv⟩, ⟨by omega, h.1.2⟩, h.2⟩
    · simp only [Memory.wfFrom, Bool.and_eq_true, decide_eq_true_eq]
      exact ⟨h.1, ih (by omega) (fun x hx => hb x (by simp [hx])) h.2⟩

/-- Writing a byte keeps the canonical form. -/
theorem Memory.wf_writeByte {m : Memory} (b : Nat) (v : BitVec 8) (h : m.wf = true) : (m.writeByte b v).wf = true := by
  unfold Memory.writeByte Memory.wf at *
  split
  · exact Memory.wfFrom_eraseByte b h
  · exact Memory.wfFrom_insertByte (by assumption) (Nat.zero_le _) (fun x hx => (Memory.ne_of_mem_eraseByte hx).1)
      (Memory.wfFrom_eraseByte b h)

theorem Memory.mem_insertByte {m : Memory} {b : Nat} {v : BitVec 8} {x : Host.Cell}
    (h : x ∈ Memory.insertByte b v m) : x = (b, v) ∨ x ∈ m := by
  induction m with
  | nil => simpa [Memory.insertByte] using h
  | cons y m ih =>
    obtain ⟨k, u⟩ := y
    simp only [Memory.insertByte] at h
    split at h
    · simpa using h
    · rcases List.mem_cons.1 h with rfl | h
      · simp
      · rcases ih h with h | h <;> simp [h]

/-- Writing a byte of a word that exists lists no cell outside `WMEM`. -/
theorem Memory.within_writeByte {m : Memory} {n b : Nat} (v : BitVec 8) (hb : b < 8 * n) (h : m.within n = true) :
    (m.writeByte b v).within n = true := by
  simp only [Memory.within, List.all_eq_true, decide_eq_true_eq] at h ⊢
  intro x hx
  unfold Memory.writeByte at hx
  split at hx
  · exact h x (Memory.ne_of_mem_eraseByte hx).2
  · rcases Memory.mem_insertByte hx with rfl | hx
    · exact hb
    · exact h x (Memory.ne_of_mem_eraseByte hx).2

theorem Memory.readByte_lt {m : Memory} {lo b : Nat} (h : Memory.wfFrom lo m = true) (hb : b < lo) :
    m.readByte b = Config.unlistedByte := by
  induction m generalizing lo with
  | nil => rfl
  | cons x m ih =>
    obtain ⟨k, v⟩ := x
    simp only [Memory.wfFrom, Bool.and_eq_true, decide_eq_true_eq] at h
    rw [Memory.readByte_cons, if_neg (by omega), ih h.2 (by omega)]

/-- Canonical memories that read the same at every address are the same data. -/
theorem Memory.ext_of_wf {m m' : Memory} (h : m.wf = true) (h' : m'.wf = true)
    (hr : ∀ b, m.readByte b = m'.readByte b) : m = m' := by
  unfold Memory.wf at h h'
  generalize 0 = lo at h h'
  induction m generalizing m' lo with
  | nil =>
    cases m' with
    | nil => rfl
    | cons x m' =>
      obtain ⟨k, v⟩ := x
      simp only [Memory.wfFrom, Bool.and_eq_true, decide_eq_true_eq, bne_iff_ne] at h'
      exact absurd (by simpa [Memory.readByte_cons] using (hr k).symm) h'.1.2
  | cons x m ih =>
    obtain ⟨k, v⟩ := x
    simp only [Memory.wfFrom, Bool.and_eq_true, decide_eq_true_eq, bne_iff_ne] at h
    cases m' with
    | nil => exact absurd (by simpa [Memory.readByte_cons] using hr k) h.1.2
    | cons y m' =>
      obtain ⟨k', v'⟩ := y
      simp only [Memory.wfFrom, Bool.and_eq_true, decide_eq_true_eq, bne_iff_ne] at h'
      have hkk : k = k' := by
        rcases Nat.lt_trichotomy k k' with hlt | heq | hlt
        · have := hr k
          rw [Memory.readByte_cons, if_pos rfl, Memory.readByte_cons, if_neg (by omega),
            Memory.readByte_lt h'.2 (by omega)] at this
          exact absurd this h.1.2
        · exact heq
        · have := hr k'
          rw [Memory.readByte_cons, if_neg (by omega), Memory.readByte_lt h.2 (by omega), Memory.readByte_cons,
            if_pos rfl] at this
          exact absurd this.symm h'.1.2
      subst hkk
      have hv : v = v' := by simpa [Memory.readByte_cons] using hr k
      subst hv
      congr 1
      refine ih (h := h.2) (h' := h'.2) (hr := fun b => ?_)
      rcases Nat.lt_or_ge b (k + 1) with hb | hb
      · rw [Memory.readByte_lt h.2 hb, Memory.readByte_lt h'.2 hb]
      · have := hr b
        rwa [Memory.readByte_cons, if_neg (by omega), Memory.readByte_cons, if_neg (by omega)] at this

/-! ## Words -/

/-- A byte after a word is written: its byte of the word, or as before. -/
theorem Memory.readByte_writeWord (m : Memory) (a b : Nat) (v : Word) :
    (m.writeWord a v).readByte b = if b / 8 = a then byteOf v (b % 8) else m.readByte b := by
  simp only [Memory.writeWord, Memory.readByte_writeByte]
  by_cases h : b / 8 = a
  · subst h
    have h8 : b % 8 < 8 := Nat.mod_lt _ (by decide)
    have hb := Nat.div_add_mod b 8
    simp only [if_true]
    generalize b % 8 = r at h8 hb ⊢
    interval_cases r <;> · repeat (first | rw [if_pos (by omega)] | rw [if_neg (by omega)])
  · simp only [h, if_false]
    repeat rw [if_neg (by omega)]

/-- A word is made of its own bytes. -/
theorem wordOfBytes_byteOf (v : Word) :
    wordOfBytes (byteOf v 0) (byteOf v 1) (byteOf v 2) (byteOf v 3) (byteOf v 4) (byteOf v 5) (byteOf v 6)
      (byteOf v 7) = v := by
  apply BitVec.eq_of_getLsbD_eq
  intro i hi
  simp only [wordOfBytes, byteOf, BitVec.getLsbD_append, BitVec.getLsbD_extractLsb']
  interval_cases i <;> simp

/-- A read after a write: the word written, and every other word as before. -/
theorem Memory.readWord_writeWord (m : Memory) (a c : Nat) (v : Word) :
    (m.writeWord a v).readWord c = if c = a then v else m.readWord c := by
  have h0 : ∀ k, k < 8 → (8 * c + k) / 8 = c ∧ (8 * c + k) % 8 = k := fun k hk => by omega
  have h00 := h0 0 (by decide)
  simp only [Nat.add_zero] at h00
  simp only [Memory.readWord, Memory.readByte_writeWord, h00, h0 1 (by decide), h0 2 (by decide), h0 3 (by decide),
    h0 4 (by decide), h0 5 (by decide), h0 6 (by decide), h0 7 (by decide)]
  split
  · exact wordOfBytes_byteOf v
  · rfl

@[simp] theorem Memory.readWord_writeWord_same (m : Memory) (a : Nat) (v : Word) :
    (m.writeWord a v).readWord a = v := by rw [Memory.readWord_writeWord, if_pos rfl]

theorem Memory.readWord_writeWord_ne (m : Memory) {a c : Nat} (v : Word) (h : c ≠ a) :
    (m.writeWord a v).readWord c = m.readWord c := by rw [Memory.readWord_writeWord, if_neg h]

/-- A byte outside the written word reads as before. -/
theorem Memory.readByte_writeWord_ne (m : Memory) {a b : Nat} (v : Word) (h : b / 8 ≠ a) :
    (m.writeWord a v).readByte b = m.readByte b := by rw [Memory.readByte_writeWord, if_neg h]

/-- Bytes that read the same make words that read the same. -/
theorem Memory.readWord_congr {m m' : Memory} {a : Nat} (h : ∀ b, b / 8 = a → m'.readByte b = m.readByte b) :
    m'.readWord a = m.readWord a := by
  unfold Memory.readWord
  rw [h (8 * a) (by omega), h (8 * a + 1) (by omega), h (8 * a + 2) (by omega), h (8 * a + 3) (by omega),
    h (8 * a + 4) (by omega), h (8 * a + 5) (by omega), h (8 * a + 6) (by omega), h (8 * a + 7) (by omega)]

/-- A byte is that byte of its word. -/
theorem Memory.byteOf_readWord (m : Memory) (b : Nat) : byteOf (m.readWord (b / 8)) (b % 8) = m.readByte b := by
  have h8 : b % 8 < 8 := Nat.mod_lt _ (by decide)
  have hb : b = 8 * (b / 8) + b % 8 := (Nat.div_add_mod b 8).symm
  generalize b / 8 = a at hb ⊢
  generalize b % 8 = r at h8 hb ⊢
  subst hb
  apply BitVec.eq_of_getLsbD_eq
  intro i hi
  simp only [byteOf, Memory.readWord, wordOfBytes, BitVec.getLsbD_append, BitVec.getLsbD_extractLsb']
  interval_cases r <;> interval_cases i <;> simp

/-- Memories whose words read the same read the same byte by byte. -/
theorem Memory.readByte_of_readWord {m m' : Memory} {b : Nat} (h : m'.readWord (b / 8) = m.readWord (b / 8)) :
    m'.readByte b = m.readByte b := by
  rw [← Memory.byteOf_readWord m', ← Memory.byteOf_readWord m, h]

/-- Writing a word keeps the canonical form. -/
theorem Memory.wf_writeWord {m : Memory} (a : Nat) (v : Word) (h : m.wf = true) : (m.writeWord a v).wf = true := by
  unfold Memory.writeWord
  repeat apply Memory.wf_writeByte
  exact h

/-- Writing a word that exists lists no cell outside `WMEM`. -/
theorem Memory.within_writeWord {m : Memory} {n a : Nat} (v : Word) (ha : a < n) (h : m.within n = true) :
    (m.writeWord a v).within n = true := by
  unfold Memory.writeWord
  repeat refine Memory.within_writeByte _ (by omega) ?_
  exact h

theorem State.reset_mem_wf : State.reset.mem.wf = true := rfl

/-- The contents a reset event gives are in canonical form. -/
theorem wf_contentsMem (contents : List (Nat × Word)) : (contentsMem contents).wf = true := by
  unfold contentsMem
  have : ∀ (cs : List (Nat × Word)) (m : Memory), m.wf = true →
      (cs.foldl (fun m c => m.writeWord c.1 c.2) m).wf = true := by
    intro cs
    induction cs with
    | nil => exact fun m h => h
    | cons c cs ih => exact fun m h => ih _ (Memory.wf_writeWord _ _ h)
  exact this contents [] rfl

/-- Contents of words that exist stay inside `WMEM`. -/
theorem within_contentsMem {n : Nat} {contents : List (Nat × Word)} (h : ∀ c ∈ contents, c.1 < n) :
    (contentsMem contents).within n = true := by
  unfold contentsMem
  have : ∀ (cs : List (Nat × Word)) (m : Memory), (∀ c ∈ cs, c.1 < n) → m.within n = true →
      (cs.foldl (fun m c => m.writeWord c.1 c.2) m).within n = true := by
    intro cs
    induction cs with
    | nil => exact fun m _ h => h
    | cons c cs ih =>
      exact fun m hc h => ih _ (fun c hc' => hc c (by simp [hc'])) (Memory.within_writeWord _ (hc c (by simp)) h)
  exact this contents [] h rfl

end Sys2Proof.Machine
end

