-- ==== Sys2Proof/Laws/Loops.lean ====
section
/-! SUPPORT. What the shared loops over memory do, said once: allocation, bulk copy, the boundary word, the chunk
loop of the bit-mover. `Confined` is the frame of a memory operation; the bit lemmas say what it leaves behind. -/

namespace Sys2Proof.Machine

open Safety (bitAt)

/-! ## Frames of memory operations -/

/-- An operation that writes only words of `[base, base + n)`: it keeps the canonical form, lists nothing outside a
memory that holds the range, and every other byte reads as before. -/
structure Confined (m m' : Memory) (base n : Nat) : Prop where
  wf : m.wf = true → m'.wf = true
  within : ∀ N, base + n ≤ N → m.within N = true → m'.within N = true
  kept : Safety.bytesKept m m' base n

theorem Confined.refl (m : Memory) (base n : Nat) : Confined m m base n := ⟨id, fun _ _ h => h, fun _ _ => rfl⟩

theorem Confined.trans {m m' m'' : Memory} {base n : Nat} (h : Confined m m' base n) (h' : Confined m' m'' base n) :
    Confined m m'' base n :=
  ⟨fun w => h'.wf (h.wf w), fun N hN w => h'.within N hN (h.within N hN w), fun b hb => (h'.kept b hb).trans (h.kept b hb)⟩

theorem Confined.mono {m m' : Memory} {base n base' n' : Nat} (h : Confined m m' base n) (h1 : base' ≤ base)
    (h2 : base + n ≤ base' + n') : Confined m m' base' n' :=
  ⟨h.wf, fun N hN w => h.within N (by omega) w, fun b hb => h.kept b (by omega)⟩

theorem confined_writeWord (m : Memory) {base n a : Nat} (v : Word) (h1 : base ≤ a) (h2 : a < base + n) :
    Confined m (m.writeWord a v) base n :=
  ⟨Memory.wf_writeWord a v, fun _ hN w => Memory.within_writeWord v (by omega) w,
    fun _ hb => Memory.readByte_writeWord_ne m v (by omega)⟩

theorem confined_orWord (m : Memory) {base n a : Nat} (v : Word) (h1 : base ≤ a) (h2 : a < base + n) :
    Confined m (orWord m a v) base n := confined_writeWord m _ h1 h2

/-- A word outside the range reads as before. -/
theorem Confined.readWord {m m' : Memory} {base n a : Nat} (h : Confined m m' base n) (ha : ¬(base ≤ a ∧ a < base + n)) :
    m'.readWord a = m.readWord a := Memory.readWord_congr fun b hb => h.kept b (by omega)

/-- The bits of an array that shares no word with the range read as before. -/
theorem Confined.bitAt {m m' : Memory} {base n a g : Nat} (h : Confined m m' base n)
    (ha : ¬(base ≤ a + g / 64 ∧ a + g / 64 < base + n)) : Safety.bitAt m' a g = Safety.bitAt m a g := by
  unfold Safety.bitAt
  rw [h.readWord ha]

theorem confined_forUp {base n : Nat} (f : Nat → Memory → Memory) (count : Nat)
    (h : ∀ k m, k < count → Confined m (f k m) base n) (m : Memory) : Confined m (forUp count f m) base n := by
  induction count with
  | zero => exact Confined.refl m base n
  | succ c ih => exact (ih fun k m hk => h k m (by omega)).trans (h c _ (by omega))

/-! ## One read-modify-write -/

theorem readWord_orWord (m : Memory) (a c : Nat) (v : Word) :
    (orWord m a v).readWord c = if c = a then m.readWord a ||| v else m.readWord c := by
  rw [orWord, Memory.readWord_writeWord]

/-- The bits of an array after a word is OR-ed into it. -/
theorem bitAt_orWord (m : Memory) (base i g : Nat) (v : Word) :
    bitAt (orWord m (base + i) v) base g = (bitAt m base g || (decide (g / 64 = i) && v.getLsbD (g % 64))) := by
  unfold Safety.bitAt
  rw [readWord_orWord]
  by_cases h : g / 64 = i
  · simp [h]
  · rw [if_neg (by omega)]; simp [h]

/-! ## Allocation (40_allocator R80) -/

theorem confined_zeroFill (m : Memory) (base n : Nat) : Confined m (zeroFill m base n) base n :=
  confined_forUp _ _ (fun k m hk => confined_writeWord m 0 (Nat.le_add_right _ _) (by omega)) m

/-- The allocated words are 0 and every other word is as before. -/
theorem readWord_zeroFill (m : Memory) (base n a : Nat) :
    (zeroFill m base n).readWord a = if base ≤ a ∧ a < base + n then 0 else m.readWord a := by
  unfold zeroFill
  induction n with
  | zero => rw [if_neg (by omega)]; rfl
  | succ c ih =>
    simp only [forUp, Memory.readWord_writeWord, ih]
    by_cases h : a = base + c
    · rw [if_pos h, if_pos (by omega)]
    · rw [if_neg h]
      by_cases h' : base ≤ a ∧ a < base + c
      · rw [if_pos h', if_pos (by omega)]
      · rw [if_neg h', if_neg (by omega)]

theorem bitAt_zeroFill (m : Memory) {base n g : Nat} (h : g / 64 < n) : bitAt (zeroFill m base n) base g = false := by
  unfold Safety.bitAt
  rw [readWord_zeroFill, if_pos (by omega)]
  simp

/-! ## Bulk copy (43_structural_editor R125) -/

theorem confined_bulkCopy (m : Memory) (src dst n : Nat) : Confined m (bulkCopy m src dst n) dst n :=
  confined_forUp _ _ (fun k m hk => confined_writeWord m _ (Nat.le_add_right _ _) (by omega)) m

/-- With source and destination words apart, word `k` of the destination is word `k` of the source. -/
theorem readWord_bulkCopy (m : Memory) {src dst n : Nat} (a : Nat) (h : ∀ i j, i < n → j < n → src + i ≠ dst + j) :
    (bulkCopy m src dst n).readWord a =
      if dst ≤ a ∧ a < dst + n then m.readWord (src + (a - dst)) else m.readWord a := by
  unfold bulkCopy
  induction n generalizing a with
  | zero => rw [if_neg (by omega)]; rfl
  | succ c ih =>
    have ih := fun a => ih a fun i j hi hj => h i j (by omega) (by omega)
    simp only [forUp, Memory.readWord_writeWord, ih]
    by_cases h1 : a = dst + c
    · subst h1
      have : ¬(dst ≤ src + c ∧ src + c < dst + c) := fun hc => h c (src + c - dst) (by omega) (by omega) (by omega)
      rw [if_pos rfl, if_neg this, if_pos (by omega), Nat.add_sub_cancel_left]
    · rw [if_neg h1]
      by_cases h' : dst ≤ a ∧ a < dst + c
      · rw [if_pos h', if_pos (by omega)]
      · rw [if_neg h', if_neg (by omega)]

/-! ## The bit-mover (42_bit_mover) -/

theorem chunkLen_pos (s d : Nat) : 1 ≤ chunkLen s d := by
  have := bitIdx_lt s
  have := bitIdx_lt d
  unfold chunkLen
  omega

theorem chunkLen_le (s d : Nat) : s % 64 + chunkLen s d ≤ 64 ∧ d % 64 + chunkLen s d ≤ 64 := by
  unfold chunkLen bitIdx
  omega

/-- The loop leaves once `s` has reached the limit. -/
theorem copyLoop_done (fuel sb s db d limit : Nat) (m : Memory) (h : limit ≤ s) :
    copyLoop fuel sb s db d limit m = m := by
  cases fuel with
  | zero => rfl
  | succ f => rw [copyLoop, if_neg (by omega)]

/-- Any two bounds of at least `limit − s` iterations give the same memory. -/
theorem copyLoop_fuel {fuel fuel' : Nat} (sb s db d limit : Nat) (m : Memory) (h : limit - s ≤ fuel)
    (h' : limit - s ≤ fuel') : copyLoop fuel sb s db d limit m = copyLoop fuel' sb s db d limit m := by
  induction fuel generalizing fuel' s d m with
  | zero => rw [copyLoop_done _ _ _ _ _ _ _ (by omega), copyLoop_done _ _ _ _ _ _ _ (by omega)]
  | succ f ih =>
    rcases Nat.lt_or_ge s limit with hs | hs
    · obtain ⟨g, rfl⟩ : ∃ g, fuel' = g + 1 := ⟨fuel' - 1, by omega⟩
      have := chunkLen_pos s d
      rw [copyLoop, copyLoop, if_pos hs, if_pos hs]
      exact ih _ _ _ (by omega) (by omega)
    · rw [copyLoop_done _ _ _ _ _ _ _ hs, copyLoop_done _ _ _ _ _ _ _ hs]

/-- The relay moves nothing when nothing is asked. -/
theorem copyBits_done (m : Memory) {sb s db d limit : Nat} (h : limit ≤ s) : copyBits m sb s db d limit = m :=
  copyLoop_done _ _ _ _ _ _ _ h

/-- One turn of `while s < limit` (42_bit_mover R111). -/
theorem copyBits_step (m : Memory) {sb s db d limit : Nat} (h : s < limit) :
    copyBits m sb s db d limit =
      copyBits (copyChunk m sb s db d) sb (s + chunkLen s d) db (d + chunkLen s d) limit := by
  have := chunkLen_pos s d
  obtain ⟨g, hg⟩ : ∃ g, limit - s = g + 1 := ⟨limit - s - 1, by omega⟩
  unfold copyBits
  rw [hg, copyLoop, if_pos h]
  exact copyLoop_fuel _ _ _ _ _ _ (by omega) (Nat.le_refl _)

/-- Induction along the turns of the loop: what holds when nothing is left, and is passed back through a turn,
holds of every start. -/
theorem copyBits_induction {limit : Nat} {P : Nat → Nat → Memory → Prop}
    (done : ∀ s d m, limit ≤ s → P s d m)
    (turn : ∀ s d m, s < limit → (∀ m', P (s + chunkLen s d) (d + chunkLen s d) m') → P s d m)
    (s d : Nat) (m : Memory) : P s d m := by
  generalize hn : limit - s = n
  induction n using Nat.strongRecOn generalizing s d m with
  | ind n ih =>
    rcases Nat.lt_or_ge s limit with hs | hs
    · have := chunkLen_pos s d
      exact turn s d m hs fun m' => ih (limit - (s + chunkLen s d)) (by omega) _ _ _ rfl
    · exact done s d m hs

/-- The relay depends on the words of its two arrays alone: memories that agree on a set of words holding both agree
on it after (42_bit_mover R112, R113). -/
theorem copyBits_agree {A : Nat → Prop} {sb db limit n n' : Nat} (hsrc : ∀ i, i < n → A (sb + i))
    (hdst : ∀ i, i < n' → A (db + i)) {s d : Nat} {m m' : Memory} (hm : ∀ a, A a → m'.readWord a = m.readWord a)
    (hs : s < limit → limit ≤ 64 * n) (hd : s < limit → d + (limit - s) ≤ 64 * n') :
    ∀ a, A a → (copyBits m' sb s db d limit).readWord a = (copyBits m sb s db d limit).readWord a := by
  refine copyBits_induction (limit := limit)
    (P := fun s d m => ∀ m', (∀ a, A a → m'.readWord a = m.readWord a) → (s < limit → limit ≤ 64 * n) →
      (s < limit → d + (limit - s) ≤ 64 * n') →
      ∀ a, A a → (copyBits m' sb s db d limit).readWord a = (copyBits m sb s db d limit).readWord a)
    (fun s d m h m' hm _ _ => ?_) (fun s d m h ih m' hm hs hd => ?_) s d m m' hm hs hd
  · rw [copyBits_done m h, copyBits_done m' h]
    exact hm
  · have hn := hs h
    have hn' := hd h
    rw [copyBits_step m h, copyBits_step m' h]
    refine ih _ _ (fun a ha => ?_) (fun _ => hn) (fun _ => by omega)
    have h1 := hm _ (hsrc (s / 64) (by omega))
    have h2 := hm _ (hdst (d / 64) (by omega))
    simp only [copyChunk, readWord_orWord, wordIdx, h1, h2, hm a ha]

/-- The bits of one chunk: destination bit `d + k`, `0 ≤ k < chunk`, gets source bit `s + k` OR-ed in, and every
other bit of the destination array is as before (42_bit_mover R111, R112). -/
theorem bitAt_copyChunk (m : Memory) (sb s db d g : Nat) :
    bitAt (copyChunk m sb s db d) db g =
      (bitAt m db g || (decide (d ≤ g ∧ g < d + chunkLen s d) && bitAt m sb (s + (g - d)))) := by
  have hc := chunkLen_le s d
  unfold copyChunk
  rw [bitAt_orWord]
  congr 1
  simp only [getLsbD_lsl, BitVec.getLsbD_and, getLsbD_lsr, getLsbD_maskBelow, wordIdx, bitIdx]
  by_cases h : d ≤ g ∧ g < d + chunkLen s d
  · obtain ⟨k, rfl⟩ : ∃ k, g = d + k := ⟨g - d, by omega⟩
    have h1 : (d + k) / 64 = d / 64 := by omega
    have h2 : (d + k) % 64 = d % 64 + k := by omega
    have h3 : (s + k) / 64 = s / 64 := by omega
    have h4 : (s + k) % 64 = s % 64 + k := by omega
    unfold Safety.bitAt
    rw [Nat.add_sub_cancel_left, h1, h2, h3, h4, Nat.add_sub_cancel_left]
    simp [show d % 64 + k < 64 by omega, show k < 64 by omega, show k < chunkLen s d by omega]
  · rw [decide_eq_false h, Bool.false_and]
    by_cases h1 : g / 64 = d / 64
    · have : ¬(g % 64 < 64 ∧ ¬g % 64 < d % 64 ∧ g % 64 - d % 64 < chunkLen s d) := by omega
      rcases Nat.lt_or_ge (g % 64) (d % 64) with h2 | h2
      · simp [h2]
      · have : ¬g % 64 - d % 64 < chunkLen s d := by omega
        simp [this]
    · simp [h1]

theorem confined_copyChunk (m : Memory) {sb s db d n : Nat} (h : d / 64 < n) : Confined m (copyChunk m sb s db d) db n :=
  confined_orWord m _ (Nat.le_add_right _ _) (by unfold wordIdx; omega)

/-- The relay writes only words of an array that holds the destination range (42_bit_mover R113: the window never
leaves the arrays). -/
theorem confined_copyBits (m : Memory) {sb s db d limit n : Nat} (h : s < limit → d + (limit - s) ≤ 64 * n) :
    Confined m (copyBits m sb s db d limit) db n := by
  refine copyBits_induction (limit := limit)
    (P := fun s d m => (s < limit → d + (limit - s) ≤ 64 * n) → Confined m (copyBits m sb s db d limit) db n)
    (fun s d m hs _ => ?_) (fun s d m hs ih hd => ?_) s d m h
  · rw [copyBits_done m hs]; exact Confined.refl _ _ _
  · have := hd hs
    have := chunkLen_pos s d
    rw [copyBits_step m hs]
    exact (confined_copyChunk m (by omega)).trans (ih _ (fun _ => by omega))

/-- The bits the relay moves in all (42_bit_mover R113), one turn at a time. -/
theorem movedBits_turn {s d limit : Nat} (h : s < limit) :
    Safety.movedBits s d (limit - s) =
      chunkLen s d + Safety.movedBits (s + chunkLen s d) (d + chunkLen s d) (limit - (s + chunkLen s d)) := by
  have h1 := chunkLen_pos s d
  unfold Safety.movedBits Safety.overCopy
  rw [if_neg (by omega)]
  by_cases h2 : s + chunkLen s d < limit
  · rw [if_neg (by omega)]
    have e1 : s + (limit - s) = s + chunkLen s d + (limit - (s + chunkLen s d)) := by omega
    have e2 : d + (limit - s) = d + chunkLen s d + (limit - (s + chunkLen s d)) := by omega
    rw [← e1, ← e2]
    omega
  · rw [if_pos (by omega)]
    unfold chunkLen bitIdx at *
    omega

/-- The window stays in the source array (42_bit_mover R113). -/
theorem source_movedBits_le {s d limit n : Nat} (h : limit ≤ 64 * n) (hs : s < limit) :
    s + Safety.movedBits s d (limit - s) ≤ 64 * n := by
  unfold Safety.movedBits Safety.overCopy
  rw [if_neg (by omega), show s + (limit - s) = limit by omega]
  omega

/-- The window stays in the destination array (42_bit_mover R113). -/
theorem destination_movedBits_le {s d len n : Nat} (h : d + len ≤ 64 * n) : d + Safety.movedBits s d len ≤ 64 * n := by
  unfold Safety.movedBits Safety.overCopy
  split <;> omega

/-- The closed form of the relay when source and destination words are apart (42_bit_mover R115): destination bit
`d + k`, `k < T`, gets source bit `s + k` OR-ed in; every other bit of the destination array is as before. -/
theorem bitAt_copyBits (m : Memory) {sb s db d limit n n' : Nat} (hs : s < limit → limit ≤ 64 * n)
    (hd : s < limit → d + (limit - s) ≤ 64 * n') (hdisj : ∀ i j, i < n → j < n' → sb + i ≠ db + j) (g : Nat) :
    bitAt (copyBits m sb s db d limit) db g =
      (bitAt m db g ||
        (decide (d ≤ g ∧ g < d + Safety.movedBits s d (limit - s)) && bitAt m sb (s + (g - d)))) := by
  refine copyBits_induction (limit := limit)
    (P := fun s d m => (s < limit → limit ≤ 64 * n) → (s < limit → d + (limit - s) ≤ 64 * n') →
      bitAt (copyBits m sb s db d limit) db g = (bitAt m db g ||
        (decide (d ≤ g ∧ g < d + Safety.movedBits s d (limit - s)) && bitAt m sb (s + (g - d)))))
    (fun s d m h _ _ => ?_) (fun s d m h ih hs hd => ?_) s d m hs hd
  · have : limit - s = 0 := by omega
    rw [copyBits_done m h, this]
    simp [Safety.movedBits]
  · have hs := hs h
    have hd := hd h
    have hc := chunkLen_pos s d
    have hle := chunkLen_le s d
    rw [copyBits_step m h, ih _ (fun _ => hs) (fun _ => by omega), bitAt_copyChunk, movedBits_turn h, Bool.or_assoc]
    congr 1
    generalize hT : Safety.movedBits (s + chunkLen s d) (d + chunkLen s d) (limit - (s + chunkLen s d)) = T
    by_cases h1 : g < d + chunkLen s d
    · have : ¬(d + chunkLen s d ≤ g ∧ g < d + chunkLen s d + T) := by omega
      have e : (d ≤ g ∧ g < d + chunkLen s d) ↔ (d ≤ g ∧ g < d + (chunkLen s d + T)) := by omega
      simp only [this, decide_false, Bool.false_and, Bool.or_false, decide_eq_decide.2 e]
    · have h2 : ¬(d ≤ g ∧ g < d + chunkLen s d) := by omega
      by_cases h3 : g < d + chunkLen s d + T
      · have e : s + chunkLen s d + (g - (d + chunkLen s d)) = s + (g - d) := by omega
        have hsrc : bitAt (copyChunk m sb s db d) sb (s + (g - d)) = bitAt m sb (s + (g - d)) := by
          have := movedBits_turn (d := d) h
          have := source_movedBits_le (d := d) hs h
          refine (confined_copyChunk (n := n') m (by omega)).bitAt fun hcc => ?_
          exact hdisj ((s + (g - d)) / 64) (sb + (s + (g - d)) / 64 - db) (by omega) (by omega) (by omega)
        rw [e, hsrc]
        simp [show d + chunkLen s d ≤ g by omega, h3, show d ≤ g by omega, show g < d + (chunkLen s d + T) by omega]
      · simp [h2, h3, show ¬ g < d + (chunkLen s d + T) by omega]

/-! ## Bits of the whole memory, whatever overlaps (42_bit_mover R114) -/

/-- Bit `g` of the array at `base` is bit `64 × base + g` of the memory. -/
theorem bitAt_absolute (m : Memory) (base g : Nat) : bitAt m base g = bitAt m 0 (64 * base + g) := by
  unfold Safety.bitAt
  rw [show 0 + (64 * base + g) / 64 = base + g / 64 by omega, show (64 * base + g) % 64 = g % 64 by omega]

/-- Memories whose bits read the same read the same word by word. -/
theorem Memory.readWord_of_bitAt {m m' : Memory} {a : Nat} (h : ∀ g, g / 64 = a → bitAt m' 0 g = bitAt m 0 g) :
    m'.readWord a = m.readWord a := by
  apply BitVec.eq_of_getLsbD_eq
  intro i hi
  have := h (64 * a + i) (by omega)
  unfold Safety.bitAt at this
  rwa [show 0 + (64 * a + i) / 64 = a by omega, show (64 * a + i) % 64 = i by omega] at this

/-- The bits of the whole memory after one chunk. -/
theorem bitAt_copyChunk_absolute (m : Memory) (sb s db d g : Nat) :
    bitAt (copyChunk m sb s db d) 0 g =
      (bitAt m 0 g || (decide (64 * db + d ≤ g ∧ g < 64 * db + d + chunkLen s d) &&
        bitAt m 0 (64 * sb + s + (g - (64 * db + d))))) := by
  by_cases h : 64 * db ≤ g
  · obtain ⟨k, rfl⟩ : ∃ k, g = 64 * db + k := ⟨g - 64 * db, by omega⟩
    rw [← bitAt_absolute, bitAt_copyChunk, ← bitAt_absolute, bitAt_absolute m sb,
      show 64 * sb + s + (64 * db + k - (64 * db + d)) = 64 * sb + (s + (k - d)) by omega]
    congr 2
    exact decide_eq_decide.2 (by omega)
  · have hc := chunkLen_le s d
    rw [(confined_copyChunk (n := d / 64 + 1) m (by omega)).bitAt (by omega)]
    simp; omega

/-- The relay never clears a bit, and changes no bit outside the destination bits `[d, d + T)`, also when the arrays
overlap (42_bit_mover R114). -/
theorem bitAt_copyBits_or (m : Memory) (sb s db d limit g : Nat) :
    (bitAt m 0 g = true → bitAt (copyBits m sb s db d limit) 0 g = true) ∧
    (¬(64 * db + d ≤ g ∧ g < 64 * db + d + Safety.movedBits s d (limit - s)) →
      bitAt (copyBits m sb s db d limit) 0 g = bitAt m 0 g) := by
  refine copyBits_induction (limit := limit)
    (P := fun s d m => (bitAt m 0 g = true → bitAt (copyBits m sb s db d limit) 0 g = true) ∧
      (¬(64 * db + d ≤ g ∧ g < 64 * db + d + Safety.movedBits s d (limit - s)) →
        bitAt (copyBits m sb s db d limit) 0 g = bitAt m 0 g)) (fun s d m h => ?_) (fun s d m h ih => ?_) s d m
  · rw [copyBits_done m h]; exact ⟨id, fun _ => rfl⟩
  · have ih := ih (copyChunk m sb s db d)
    have hc := chunkLen_pos s d
    rw [copyBits_step m h]
    refine ⟨fun hg => ih.1 (by rw [bitAt_copyChunk_absolute, hg, Bool.true_or]), fun hg => ?_⟩
    rw [movedBits_turn h] at hg
    rw [ih.2 (by omega), bitAt_copyChunk_absolute,
      decide_eq_false (show ¬(64 * db + d ≤ g ∧ g < 64 * db + d + chunkLen s d) by omega), Bool.false_and,
      Bool.or_false]

/-! ## The structural editor (43_structural_editor R125) -/

/-- What the first three steps leave in the new array: the source bits below `off`, 0 above. -/
theorem bitAt_spliceHead (m : Memory) {sb db off n nw : Nat} (hn : off ≤ 64 * n) (hnw : off ≤ 64 * nw)
    (hdisj : ∀ i j, i < n → j < nw → sb + i ≠ db + j) {g : Nat} (hg : g < 64 * nw) :
    bitAt (spliceHead m sb db off nw) db g = (decide (g < off) && bitAt m sb g) := by
  have hz : ∀ i, i < n → (zeroFill m db nw).readWord (sb + i) = m.readWord (sb + i) := fun i hi => by
    rw [readWord_zeroFill, if_neg fun hc => hdisj i (sb + i - db) hi (by omega) (by omega)]
  have hb : ∀ a, (bulkCopy (zeroFill m db nw) sb db (off / 64)).readWord a =
      if db ≤ a ∧ a < db + off / 64 then (zeroFill m db nw).readWord (sb + (a - db))
      else (zeroFill m db nw).readWord a := fun a =>
    readWord_bulkCopy _ a fun i j hi hj => hdisj i j (by omega) (by omega)
  have hbg : bitAt (bulkCopy (zeroFill m db nw) sb db (off / 64)) db g =
      (decide (g / 64 < off / 64) && bitAt m sb g) := by
    unfold Safety.bitAt
    rw [hb]
    by_cases h : g / 64 < off / 64
    · rw [if_pos (by omega), Nat.add_sub_cancel_left, hz _ (by omega)]; simp [h]
    · rw [if_neg (by omega), readWord_zeroFill, if_pos (by omega)]; simp [h]
  unfold spliceHead keepBoundary wordIdx bitIdx
  split
  · rw [hbg]
    congr 1
    exact decide_eq_decide.2 (by omega)
  · have hs : (bulkCopy (zeroFill m db nw) sb db (off / 64)).readWord (sb + off / 64) = m.readWord (sb + off / 64) := by
      rw [hb, if_neg fun hc => hdisj (off / 64) (sb + off / 64 - db) (by omega) (by omega) (by omega), hz _ (by omega)]
    rw [bitAt_orWord, hbg, hs, BitVec.getLsbD_and, getLsbD_maskBelow]
    by_cases h : g / 64 = off / 64
    · have e : (g < off) ↔ (g % 64 < off % 64) := by omega
      unfold Safety.bitAt
      rw [h]
      simp [decide_eq_decide.2 e, Nat.mod_lt, Bool.and_comm]
    · have e : (g / 64 < off / 64) ↔ (g < off) := by omega
      simp [h, decide_eq_decide.2 e]

theorem confined_spliceHead (m : Memory) {sb db off nw : Nat} (hnw : off ≤ 64 * nw) :
    Confined m (spliceHead m sb db off nw) db nw := by
  have h := (confined_zeroFill m db nw).trans
    ((confined_bulkCopy (zeroFill m db nw) sb db (off / 64)).mono (Nat.le_refl _) (show db + off / 64 ≤ db + nw by omega))
  unfold spliceHead keepBoundary wordIdx bitIdx
  split
  · exact h
  · exact h.trans (confined_orWord _ _ (Nat.le_add_right _ _) (by omega))

/-- The splice writes only words of the new array. -/
theorem confined_splice (m : Memory) {sb db off nw src dst limit : Nat} (hnw : off ≤ 64 * nw)
    (hd : src < limit → dst + (limit - src) ≤ 64 * nw) : Confined m (splice m sb db off nw src dst limit) db nw :=
  (confined_spliceHead m hnw).trans (confined_copyBits _ hd)

/-- The whole splice, bit by bit: source bits below `off` in place, and the `T` relayed bits from `dst` up
(43_structural_editor R127, R132, R135). -/
theorem bitAt_splice (m : Memory) {sb db off n nw src dst limit : Nat} (hn : off ≤ 64 * n) (hnw : off ≤ 64 * nw)
    (hs : src < limit → limit ≤ 64 * n) (hd : src < limit → dst + (limit - src) ≤ 64 * nw)
    (hdisj : ∀ i j, i < n → j < nw → sb + i ≠ db + j) {g : Nat} (hg : g < 64 * nw) :
    bitAt (splice m sb db off nw src dst limit) db g =
      ((decide (g < off) && bitAt m sb g) ||
        (decide (dst ≤ g ∧ g < dst + Safety.movedBits src dst (limit - src)) && bitAt m sb (src + (g - dst)))) := by
  unfold splice
  rw [bitAt_copyBits _ hs hd hdisj, bitAt_spliceHead m hn hnw hdisj hg]
  congr 1
  by_cases h : dst ≤ g ∧ g < dst + Safety.movedBits src dst (limit - src)
  · have hlt : src < limit := by
      by_contra hc
      rw [show limit - src = 0 by omega] at h
      simp [Safety.movedBits] at h
      omega
    have := source_movedBits_le (d := dst) (hs hlt) hlt
    congr 1
    exact (confined_spliceHead m hnw).bitAt fun hcc =>
      hdisj ((src + (g - dst)) / 64) (sb + (src + (g - dst)) / 64 - db) (by omega) (by omega) (by omega)
  · rw [decide_eq_false h, Bool.false_and, Bool.false_and]

end Sys2Proof.Machine
end

