-- ==== Sys2Proof/Laws/Interleave.lean ====
section
/-! SUPPORT. The interleaver's double loop as one run of emissions, and what each emission leaves behind
(45_interleaver R156, R157); the interleaved number bit by bit. -/

namespace Sys2Proof.Machine

open Safety (bitAt vectorBit levelValue zValue limbValue ceilWords)

/-! ## Loops -/

theorem forUp_congr {σ : Type} {n : Nat} {f g : Nat → σ → σ} (h : ∀ k, k < n → ∀ x, f k x = g k x) (x : σ) :
    forUp n f x = forUp n g x := by
  induction n with
  | zero => rfl
  | succ n ih => simp only [forUp]; rw [ih fun k hk => h k (by omega), h n (by omega)]

theorem forUp_add {σ : Type} (n k : Nat) (f : Nat → σ → σ) (x : σ) :
    forUp (n + k) f x = forUp k (fun i => f (n + i)) (forUp n f x) := by
  induction k with
  | zero => rfl
  | succ k ih => rw [← Nat.add_assoc]; simp only [forUp, ih]

/-- A descending loop is the ascending one over the mirrored index. -/
theorem forDown_eq_forUp {σ : Type} (n : Nat) (f : Nat → σ → σ) (x : σ) :
    forDown n f x = forUp n (fun k => f (n - 1 - k)) x := by
  induction n generalizing x with
  | zero => rfl
  | succ n ih =>
    rw [forDown, ih, Nat.add_comm n 1, forUp_add 1 n]
    have h0 : forUp 1 (fun k => f (1 + n - 1 - k)) x = f n x := by
      simp only [forUp, Nat.sub_zero, Nat.add_sub_cancel_left]
    rw [h0]
    refine forUp_congr (fun k _ y => ?_) _
    simp only [show n - 1 - k = 1 + n - 1 - (1 + k) by omega]

/-- Two nested ascending loops are one. -/
theorem forUp_forUp {σ : Type} (b k : Nat) (f : Nat → Nat → σ → σ) (x : σ) :
    forUp b (fun i => forUp k (f i)) x = forUp (b * k) (fun e => f (e / k) (e % k)) x := by
  induction b with
  | zero => rw [Nat.zero_mul]; rfl
  | succ b ih =>
    rw [Nat.succ_mul, forUp_add (b * k) k, ← ih, forUp]
    refine forUp_congr (fun i hi y => ?_) _
    rw [Nat.mul_comm b k, Nat.mul_add_div (by omega), Nat.mul_add_mod, Nat.div_eq_of_lt hi, Nat.mod_eq_of_lt hi,
      Nat.add_zero]

/-! ## Emissions -/

/-- The bits emitted so far, emission `e` being bit `e / K` of vector `K − 1 − e % K` (45_interleaver R157). -/
def emitted (m : Memory) (sb db bits count n : Nat) (c : Nat) : Memory × Nat :=
  forUp n (fun e => emitBit sb db (wordsFor bits) (e / count) (count - 1 - e % count)) (m, c)

/-- The interleaver is one run of `B × K` emissions over the zero-filled array. -/
theorem interleaveBits_eq_emitted (m : Memory) (sb db bits count : Nat) :
    interleaveBits m sb db bits count =
      (emitted (zeroFill m db (wordsFor (bits * count))) sb db bits count (bits * count)
        (64 * wordsFor (bits * count) - 1)).1 := by
  unfold interleaveBits emitted
  simp only
  rw [← forUp_forUp bits count fun i k => emitBit sb db (wordsFor bits) i (count - 1 - k)]
  congr 1
  exact forUp_congr (fun i _ y => forDown_eq_forUp _ _ _) _

theorem getLsbD_sourceBit (m : Memory) (sb bits i j k : Nat) :
    (sourceBit m sb (wordsFor bits) i j).getLsbD k = (decide (k = 0) && vectorBit m sb bits i j) := by
  have h1 : (1 : Word).getLsbD k = decide (k = 0) := by
    rcases Nat.lt_or_ge k 64 with h | h
    · interval_cases k <;> rfl
    · rw [BitVec.getLsbD_of_ge _ _ h]; simp; omega
  unfold sourceBit vectorBit Safety.bitAt wordIdx bitIdx
  rw [BitVec.getLsbD_and, h1, getLsbD_lsr, ← wordsFor_eq]
  by_cases h : k = 0
  · subst h; simp
  · simp [h]

/-- Where an emission's vector bit lies in the source block. -/
theorem emission_source {bits count e : Nat} (he : e < bits * count) :
    count - 1 - e % count < count ∧ e / count < bits ∧
      (count - 1 - e % count) * ceilWords bits + (e / count) / 64 < count * ceilWords bits := by
  have hc : 0 < count := Nat.pos_of_ne_zero fun h => by simp [h] at he
  have hm := Nat.mod_lt e hc
  have hd : e / count < bits := Nat.div_lt_of_lt_mul (by rwa [Nat.mul_comm])
  have hw := div_lt_ceilWords hd
  refine ⟨by omega, hd, ?_⟩
  have h1 : (count - 1 - e % count + 1) * ceilWords bits ≤ count * ceilWords bits :=
    Nat.mul_le_mul_right _ (by omega)
  rw [Nat.succ_mul] at h1
  omega

/-- After `n` emissions into a new array of `nw` words apart from the source block: the cursor, the frame, and every
bit of the new array, named by the emission that writes it. -/
theorem emitted_spec (m : Memory) {sb db bits count nw n : Nat} (hn : n ≤ bits * count)
    (hfit : bits * count ≤ 64 * nw)
    (hdisj : ∀ i j, i < count * ceilWords bits → j < nw → sb + i ≠ db + j) :
    (emitted m sb db bits count n (64 * nw - 1)).2 = 64 * nw - 1 - n ∧
    Confined m (emitted m sb db bits count n (64 * nw - 1)).1 db nw ∧
    ∀ e, e < 64 * nw →
      ((emitted m sb db bits count n (64 * nw - 1)).1.readWord (db + (nw - 1 - e / 64))).getLsbD (e % 64) =
        ((m.readWord (db + (nw - 1 - e / 64))).getLsbD (e % 64) ||
          (decide (e < n) && vectorBit m sb bits (e / count) (count - 1 - e % count))) := by
  induction n with
  | zero => exact ⟨rfl, Confined.refl _ _ _, fun e _ => by simp [emitted, forUp]⟩
  | succ n ih =>
    obtain ⟨ih1, ih2, ih3⟩ := ih (by omega)
    obtain ⟨hj, -, hsrc⟩ := emission_source (e := n) (bits := bits) (count := count) (by omega)
    have hstep : emitted m sb db bits count (n + 1) (64 * nw - 1) =
        emitBit sb db (wordsFor bits) (n / count) (count - 1 - n % count)
          (emitted m sb db bits count n (64 * nw - 1)) := rfl
    rw [hstep]
    generalize emitted m sb db bits count n (64 * nw - 1) = st at ih1 ih2 ih3 ⊢
    obtain ⟨m', c⟩ := st
    dsimp only at ih1 ih2 ih3
    subst ih1
    have hv : vectorBit m' sb bits (n / count) (count - 1 - n % count) =
        vectorBit m sb bits (n / count) (count - 1 - n % count) := by
      unfold vectorBit
      refine ih2.bitAt fun hc => ?_
      exact hdisj _ (sb + ((count - 1 - n % count) * ceilWords bits + n / count / 64) - db) hsrc (by omega) (by omega)
    have hw : (64 * nw - 1 - n) / 64 = nw - 1 - n / 64 := by omega
    have hb : 63 - (64 * nw - 1 - n) % 64 = n % 64 := by omega
    simp only [emitBit, wordIdx, bitIdx, hw, hb]
    refine ⟨by omega, ih2.trans (confined_orWord _ _ (Nat.le_add_right _ _) (by omega)), fun e he => ?_⟩
    rw [readWord_orWord]
    by_cases h : e / 64 = n / 64
    · rw [if_pos (by omega), BitVec.getLsbD_or, ← h, ih3 e he, getLsbD_lsl, getLsbD_sourceBit, hv]
      by_cases h' : e = n
      · subst h'
        simp [Nat.mod_lt]
      · have e1 : (e < n + 1) ↔ (e < n) := by omega
        have e2 : ¬(e % 64 - n % 64 = 0 ∧ ¬e % 64 < n % 64) := by omega
        rw [show decide (e < n + 1) = decide (e < n) from decide_eq_decide.2 e1]
        rcases Nat.lt_or_ge (e % 64) (n % 64) with h2 | h2
        · simp [h2]
        · have : e % 64 - n % 64 ≠ 0 := by omega
          simp [this]
    · have e1 : (e < n + 1) ↔ (e < n) := by omega
      rw [if_neg (by omega), ih3 e he, show decide (e < n + 1) = decide (e < n) from decide_eq_decide.2 e1]

theorem confined_interleaveBits (m : Memory) {sb db bits count : Nat}
    (hdisj : ∀ i j, i < count * ceilWords bits → j < ceilWords (bits * count) → sb + i ≠ db + j) :
    Confined m (interleaveBits m sb db bits count) db (ceilWords (bits * count)) := by
  rw [interleaveBits_eq_emitted, wordsFor_eq]
  exact (confined_zeroFill m db _).trans
    (emitted_spec _ (Nat.le_refl _) (by unfold ceilWords; omega) hdisj).2.1

/-- The new array, bit by bit: bit `e & 63` of word `nw − 1 − (e >> 6)` is bit `e / K` of vector `K − 1 − e % K`, and
0 where there is no such emission (45_interleaver R157, R158). -/
theorem getLsbD_interleaveBits (m : Memory) {sb db bits count : Nat}
    (hdisj : ∀ i j, i < count * ceilWords bits → j < ceilWords (bits * count) → sb + i ≠ db + j) {e : Nat}
    (he : e < 64 * ceilWords (bits * count)) :
    ((interleaveBits m sb db bits count).readWord (db + (ceilWords (bits * count) - 1 - e / 64))).getLsbD (e % 64) =
      (decide (e < bits * count) && vectorBit m sb bits (e / count) (count - 1 - e % count)) := by
  rw [interleaveBits_eq_emitted, wordsFor_eq,
    (emitted_spec _ (Nat.le_refl _) (by unfold ceilWords; omega) hdisj).2.2 e he, readWord_zeroFill,
    if_pos (by omega)]
  by_cases h : e < bits * count
  · have hsrc := (emission_source h).2.2
    have : vectorBit (zeroFill m db (ceilWords (bits * count))) sb bits (e / count) (count - 1 - e % count) =
        vectorBit m sb bits (e / count) (count - 1 - e % count) := by
      unfold vectorBit
      refine (confined_zeroFill m db _).bitAt fun hc => ?_
      exact hdisj _ (sb + ((count - 1 - e % count) * ceilWords bits + e / count / 64) - db) hsrc (by omega) (by omega)
    simp [this]
  · simp [h]

/-! ## The interleaved number (45_interleaver R157) -/

theorem levelValue_lt (m : Memory) (sb bits i count : Nat) : levelValue m sb bits i count < 2 ^ count := by
  induction count with
  | zero => simp [levelValue]
  | succ c ih =>
    have : (vectorBit m sb bits i c).toNat ≤ 1 := Bool.toNat_le _
    rw [levelValue, Nat.pow_succ]
    omega

theorem testBit_levelValue (m : Memory) (sb bits i count k : Nat) :
    (levelValue m sb bits i count).testBit k = (decide (k < count) && vectorBit m sb bits i (count - 1 - k)) := by
  induction count generalizing k with
  | zero => simp [levelValue]
  | succ c ih =>
    have hb : (vectorBit m sb bits i c).toNat < 2 ^ 1 := by have := Bool.toNat_le (vectorBit m sb bits i c); omega
    have := Nat.testBit_two_pow_mul_add (levelValue m sb bits i c) hb k
    rw [Nat.pow_one] at this
    rw [levelValue, this]
    cases k with
    | zero => cases h : vectorBit m sb bits i c <;> simp [h]
    | succ k => simp [ih, show c - (k + 1) = c - 1 - k by omega]

theorem zValue_lt (m : Memory) (sb bits count n : Nat) : zValue m sb bits count n < 2 ^ (n * count) := by
  induction n with
  | zero => simp [zValue]
  | succ n ih =>
    have := levelValue_lt m sb bits n count
    rw [zValue, Nat.succ_mul, Nat.pow_add, Nat.mul_comm (2 ^ (n * count))]
    have h : (levelValue m sb bits n count + 1) * 2 ^ (n * count) ≤ 2 ^ count * 2 ^ (n * count) :=
      Nat.mul_le_mul_right _ this
    rw [Nat.succ_mul] at h
    omega

/-- Bit `e` of the interleaved number is emission `e`. -/
theorem testBit_zValue (m : Memory) (sb bits count n e : Nat) :
    (zValue m sb bits count n).testBit e =
      (decide (e < n * count) && vectorBit m sb bits (e / count) (count - 1 - e % count)) := by
  induction n with
  | zero => simp [zValue]
  | succ n ih =>
    rw [zValue, Nat.mul_comm, Nat.testBit_two_pow_mul_add _ (zValue_lt m sb bits count n), ih, testBit_levelValue]
    by_cases h : e < n * count
    · rw [if_pos h]; simp [h, show e < (n + 1) * count by rw [Nat.succ_mul]; omega]
    · rw [if_neg h]
      by_cases h' : e < (n + 1) * count
      · have hs : (n + 1) * count = n * count + count := Nat.succ_mul n count
        have hlt : e - n * count < count := by omega
        have hq : e / count = n := Nat.div_eq_of_lt_le (by omega) h'
        have hr : e % count = e - n * count := by
          have := Nat.div_add_mod e count
          rw [hq, Nat.mul_comm] at this
          omega
        rw [hq, hr]
        simp [hlt, h']
      · have hs : (n + 1) * count = n * count + count := Nat.succ_mul n count
        simp [h', show ¬ e - n * count < count by omega]

/-- Words that are the 64-bit digits of a number, most significant first, have that number as their limb value. -/
theorem limbValue_of_digits (m : Memory) (base n z : Nat) (hz : z < 2 ^ (64 * n))
    (h : ∀ w, w < n → (m.readWord (base + w)).toNat = z / 2 ^ (64 * (n - 1 - w)) % 2 ^ 64) :
    limbValue m base n = z := by
  have key : ∀ k, k ≤ n → limbValue m base k = z / 2 ^ (64 * (n - k)) := by
    intro k
    induction k with
    | zero => intro _; rw [limbValue, Nat.sub_zero, Nat.div_eq_of_lt hz]
    | succ k ih =>
      intro hk
      rw [limbValue, ih (by omega), h k (by omega), show n - 1 - k = n - (k + 1) by omega,
        show 64 * (n - k) = 64 * (n - (k + 1)) + 64 by omega, Nat.pow_add, ← Nat.div_div_eq_div_mul]
      omega
  have := key n (Nat.le_refl n)
  simpa using this

end Sys2Proof.Machine
end

