-- ==== Sys2Proof/Laws/Compare.lean ====
section
/-! SUPPORT. What the comparator's loop answers: the order of the two arrays as big-endian numbers (44_comparator
R147), and the order of bit sequences (45_interleaver R159). -/

namespace Sys2Proof.Machine

open Safety (limbValue lexOrder levelValue zValue zSequence vectorBit)

/-- The order of two naturals: −1, 0 or 1. -/
def natOrder (x y : Nat) : Int := if x = y then 0 else if x < y then -1 else 1

theorem natOrder_swap (x y : Nat) : natOrder y x = -natOrder x y := by
  rcases Nat.lt_trichotomy x y with h | rfl | h
  · simp [natOrder, h, Nat.ne_of_lt h, Nat.ne_of_gt h, Nat.not_lt.2 (Nat.le_of_lt h)]
  · simp [natOrder]
  · simp [natOrder, h, Nat.ne_of_lt h, Nat.ne_of_gt h, Nat.not_lt.2 (Nat.le_of_lt h)]

theorem natOrder_eq_zero {x y : Nat} : natOrder x y = 0 ↔ x = y := by
  unfold natOrder
  split
  · simp [*]
  · split <;> simp [*]

/-- The order of two-digit numbers: the upper digit decides, the lower one when the upper ones are equal. -/
theorem natOrder_mul_add {x y b u v : Nat} (hu : u < b) (hv : v < b) :
    natOrder (x * b + u) (y * b + v) = if x = y then natOrder u v else natOrder x y := by
  have h : ∀ {x y u v : Nat}, u < b → x < y → x * b + u < y * b + v := fun {x y u v} hu hxy => by
    have := Nat.mul_le_mul_right b (show x + 1 ≤ y from hxy)
    rw [Nat.succ_mul] at this
    omega
  rcases Nat.lt_trichotomy x y with hlt | rfl | hlt
  · have := h (v := v) hu hlt
    unfold natOrder
    rw [if_neg (by omega), if_pos this, if_neg (by omega), if_neg (by omega), if_pos hlt]
  · rw [if_pos rfl]
    unfold natOrder
    split <;> split <;> first | rfl | omega
  · have := h (v := u) hv hlt
    unfold natOrder
    rw [if_neg (by omega), if_neg (by omega), if_neg (by omega), if_neg (by omega), if_neg (by omega)]

theorem wordOrder_eq (wa wb : Word) : wordOrder wa wb = natOrder wa.toNat wb.toNat := by
  unfold wordOrder natOrder
  simp only [BitVec.toNat_inj]

/-- The loop from index `i`, all words below it equal, answers the order of the two numbers (44_comparator R147). -/
theorem compareLoop_eq (m : Memory) (a b n i : Nat) (h : limbValue m a i = limbValue m b i) :
    compareLoop m a b n i = natOrder (limbValue m a (i + n)) (limbValue m b (i + n)) := by
  induction n generalizing i with
  | zero => simp [compareLoop, natOrder, h]
  | succ n ih =>
    rw [compareLoop]
    split
    · rename_i hw
      rw [ih (i + 1) (by rw [limbValue, limbValue, h, hw]), show i + 1 + n = i + (n + 1) by omega]
    · rename_i hw
      rw [wordOrder_eq]
      have hne : limbValue m a (i + 1) ≠ limbValue m b (i + 1) := fun hc => by
        rw [limbValue, limbValue, h] at hc
        exact hw (BitVec.eq_of_toNat_eq (by omega))
      have h1 : natOrder (limbValue m a (i + 1)) (limbValue m b (i + 1)) =
          natOrder (m.readWord (a + i)).toNat (m.readWord (b + i)).toNat := by
        rw [limbValue, limbValue, natOrder_mul_add (BitVec.isLt _) (BitVec.isLt _), if_pos h]
      have key : ∀ k, natOrder (limbValue m a (i + 1 + k)) (limbValue m b (i + 1 + k)) =
          natOrder (limbValue m a (i + 1)) (limbValue m b (i + 1)) := by
        intro k
        induction k with
        | zero => rfl
        | succ k ihk =>
          rw [← Nat.add_assoc, limbValue, limbValue, natOrder_mul_add (BitVec.isLt _) (BitVec.isLt _), if_neg, ihk]
          intro hc
          rw [hc] at ihk
          rw [natOrder_eq_zero.2 rfl] at ihk
          exact hne (natOrder_eq_zero.1 ihk.symm)
      rw [← h1, ← key n, show i + 1 + n = i + (n + 1) by omega]

/-- Equal limb values are equal words, and the other way round. -/
theorem limbValue_eq_iff (m m' : Memory) (a b n : Nat) :
    limbValue m a n = limbValue m' b n ↔ ∀ i, i < n → m.readWord (a + i) = m'.readWord (b + i) := by
  induction n with
  | zero => simp [limbValue]
  | succ n ih =>
    have h1 := (m.readWord (a + n)).isLt
    have h2 := (m'.readWord (b + n)).isLt
    rw [limbValue, limbValue]
    constructor
    · intro h i hi
      have h3 : limbValue m a n = limbValue m' b n := by omega
      rcases Nat.lt_or_ge i n with hin | hin
      · exact ih.1 h3 i hin
      · have : i = n := by omega
        subst this
        exact BitVec.eq_of_toNat_eq (by omega)
    · intro h
      rw [ih.2 fun i hi => h i (by omega), h n (by omega)]

/-- The word an order is answered as: 0, 1 or all ones, one for each case (44_comparator R146). -/
theorem sext64_natOrder (x y : Nat) : (sext64 (natOrder x y) = 0 ↔ x = y) ∧ (sext64 (natOrder x y) = 1 ↔ y < x) ∧
    (sext64 (natOrder x y) = 0xFFFFFFFFFFFFFFFF#64 ↔ x < y) := by
  have h0 : sext64 0 = 0 := rfl
  have h1 : sext64 1 = 1 := rfl
  have h2 : sext64 (-1) = 0xFFFFFFFFFFFFFFFF#64 := rfl
  unfold natOrder
  split
  · subst_vars
    rw [h0]
    simp
  · split
    · rw [h2]
      refine ⟨?_, ?_, ?_⟩ <;> simp <;> omega
    · rw [h1]
      refine ⟨?_, ?_, ?_⟩ <;> simp <;> omega

/-! ## The order of bit sequences (45_interleaver R159) -/

theorem lexOrder_append (xs ys xs' ys' : List Bool) (h : xs.length = ys.length) :
    lexOrder (xs ++ xs') (ys ++ ys') = if lexOrder xs ys = 0 then lexOrder xs' ys' else lexOrder xs ys := by
  induction xs generalizing ys with
  | nil => cases ys with
    | nil => simp [lexOrder]
    | cons y ys => simp at h
  | cons x xs ih => cases ys with
    | nil => simp at h
    | cons y ys =>
      simp only [List.cons_append, lexOrder]
      split
      · exact ih ys (by simpa using h)
      · cases y <;> simp

/-- One bit level, vector 0 first, is ordered as its number is. -/
theorem lexOrder_level (m m' : Memory) (sb sb' bits i count : Nat) :
    lexOrder ((List.range count).map (vectorBit m sb bits i)) ((List.range count).map (vectorBit m' sb' bits i)) =
      natOrder (levelValue m sb bits i count) (levelValue m' sb' bits i count) := by
  induction count with
  | zero => simp [lexOrder, levelValue, natOrder]
  | succ c ih =>
    rw [List.range_succ, List.map_append, List.map_append, lexOrder_append _ _ _ _ (by simp), ih, levelValue, levelValue,
      Nat.mul_comm 2, Nat.mul_comm 2, natOrder_mul_add (Nat.lt_succ_of_le (Bool.toNat_le _))
        (Nat.lt_succ_of_le (Bool.toNat_le _))]
    simp only [natOrder_eq_zero]
    split
    · simp only [List.map_cons, List.map_nil]
      cases vectorBit m sb bits i c <;> cases vectorBit m' sb' bits i c <;> rfl
    · rfl

/-- The sequence of 45_interleaver R159 is ordered as the interleaved number is. -/
theorem lexOrder_zSequence (m m' : Memory) (sb sb' bits count n : Nat) :
    lexOrder (zSequence m sb bits count n) (zSequence m' sb' bits count n) =
      natOrder (zValue m sb bits count n) (zValue m' sb' bits count n) := by
  induction n with
  | zero => simp [zSequence, lexOrder, zValue, natOrder]
  | succ n ih =>
    rw [zSequence, zSequence, lexOrder_append _ _ _ _ (by simp), lexOrder_level, ih, zValue, zValue,
      natOrder_mul_add (zValue_lt _ _ _ _ _) (zValue_lt _ _ _ _ _)]
    simp only [natOrder_eq_zero]

end Sys2Proof.Machine
end

