-- ==== Sys2Proof/Laws/Decode.lean ====
section
/-! SUPPORT. What the decoder answers, said once (30_encoding R66, R67). -/

namespace Sys2Proof

/-- Every mask of the opcode map keeps the whole word. -/
theorem and_fullMask (w : CommandWord) : w &&& 0xFFFFFFFF#32 = w := by
  show w &&& BitVec.allOnes 32 = w
  rw [BitVec.and_allOnes]

/-- A word decodes to an instruction exactly when it is that instruction's word. -/
theorem decode_eq_ok_iff (w : CommandWord) (i : Instr) : decode w = .ok i ↔ w = encode i := by
  constructor
  · intro h
    unfold decode at h
    simp only [selectRow, opcodeMap, and_fullMask] at h
    split at h
    · rename_i j hj
      cases h
      repeat
        split at hj
        · rename_i e
          rw [e]
          cases hj
          rfl
      cases hj
    · split at h <;> cases h
  · rintro rfl
    cases i <;> decide

/-- The eight words are 1 to 8. -/
theorem toNat_encode (i : Instr) : 1 ≤ (encode i).toNat ∧ (encode i).toNat ≤ 8 := by cases i <;> decide

end Sys2Proof
end

