-- ==== Sys2Proof/Laws/Exec.lean ====
section
/-! SUPPORT. Each meaning opened once: the state it answers when the command is defined, the error it takes, and that
otherwise it faults (60_exceptions R188, R191). Callers cite these and do not unfold the meanings. -/

namespace Sys2Proof.Machine

/-- All preconditions hold: the command has its effect. -/
theorem requireAll_of_all {l : List (Fault × Bool)} {r : Result} (h : ∀ c ∈ l, c.2 = true) : requireAll l r = r := by
  induction l with
  | nil => rfl
  | cons c l ih =>
    obtain ⟨f, ok⟩ := c
    have : ok = true := h (f, ok) (by simp)
    rw [requireAll, if_pos this, ih fun c hc => h c (by simp [hc])]

/-- A precondition is false: a fault. -/
theorem requireAll_fault {l : List (Fault × Bool)} {r : Result} (h : ¬∀ c ∈ l, c.2 = true) :
    ∃ f, requireAll l r = .fault f := by
  induction l with
  | nil => simp at h
  | cons c l ih =>
    obtain ⟨f, ok⟩ := c
    cases ok with
    | false => exact ⟨f, rfl⟩
    | true =>
      rw [requireAll, if_pos rfl]
      exact ih fun hc => h fun c hm => by
        rcases List.mem_cons.1 hm with rfl | hm
        · rfl
        · exact hc c hm

/-! ## The states the commands answer -/

/-- After CREATE (40_allocator R80). -/
def afterCreate (s : State) : State :=
  ((s.setMem (zeroFill s.mem s.dbN (wordsFor s.lenN))).setR0 (BitVec.ofNat 64 (wordsFor s.lenN))).complete

/-- After COMPARE (44_comparator R145). -/
def afterCompare (s : State) : State := (s.setR0 (sext64 (compareLoop s.mem s.sbN s.dbN s.swN 0))).complete

/-- After GET (41_range_codec R91). -/
def afterGet (s : State) : State := (s.setR0 (getRange s.mem s.sbN s.offN s.lenN)).complete

/-- After OVERWRITE (41_range_codec R96). -/
def afterOverwrite (s : State) : State := (s.setMem (overwriteRange s.mem s.dbN s.offN s.lenN s.regs.val)).complete

/-- After COPY (42_bit_mover R111). -/
def afterCopy (s : State) : State :=
  (s.setMem (copyBits s.mem s.sbN s.offN s.dbN s.auxN (s.offN + s.lenN))).complete

/-- After INSERT (43_structural_editor R126). -/
def afterInsert (s : State) : State :=
  ((s.setMem (splice s.mem s.sbN s.dbN s.offN (wordsFor (s.auxN + s.lenN)) s.offN (s.offN + s.lenN) s.auxN)).setR0
    (BitVec.ofNat 64 (wordsFor (s.auxN + s.lenN)))).complete

/-- After REMOVE (43_structural_editor R131). -/
def afterRemove (s : State) : State :=
  ((s.setMem (splice s.mem s.sbN s.dbN s.offN (wordsFor (s.auxN - s.lenN)) (s.offN + s.lenN) s.offN s.auxN)).setR0
    (BitVec.ofNat 64 (wordsFor (s.auxN - s.lenN)))).complete

/-- After INTERLEAVE (45_interleaver R156). -/
def afterInterleave (s : State) : State :=
  ((s.setMem (interleaveBits s.mem s.sbN s.dbN s.lenN s.auxN)).setR0
    (BitVec.ofNat 64 (wordsFor (s.lenN * s.auxN)))).complete

/-! ## The meanings, case by case -/

theorem execCreate_cases (s : State) :
    (Safety.createDefined s ∧ execCreate s = .next (afterCreate s)) ∨
    (¬Safety.createDefined s ∧ ∃ f, execCreate s = .fault f) := by
  have key : (∀ c ∈ [(Fault.newArrayOutsideMemory, arrayFits s s.dbN (wordsFor s.lenN))], c.2 = true) ↔
      Safety.createDefined s := by
    simp only [List.forall_mem_cons, List.not_mem_nil, false_imp_iff, implies_true, and_true, arrayFits_iff,
      wordsFor_eq, Safety.createDefined]
  by_cases h : Safety.createDefined s
  · exact .inl ⟨h, requireAll_of_all (key.2 h)⟩
  · exact .inr ⟨h, requireAll_fault fun hc => h (key.1 hc)⟩

theorem execCompare_cases (s : State) :
    (Safety.compareDefined s ∧ execCompare s = .next (afterCompare s)) ∨
    (¬Safety.compareDefined s ∧ ∃ f, execCompare s = .fault f) := by
  have key : (∀ c ∈ [(Fault.shapeMismatch, s.swN == s.dwN), (.sourceOutsideMemory, arrayFits s s.sbN s.swN),
      (.destinationOutsideMemory, arrayFits s s.dbN s.dwN)], c.2 = true) ↔ Safety.compareDefined s := by
    simp only [List.forall_mem_cons, List.not_mem_nil, false_imp_iff, implies_true, and_true, arrayFits_iff,
      beq_iff_eq, Safety.compareDefined]
  by_cases h : Safety.compareDefined s
  · exact .inl ⟨h, requireAll_of_all (key.2 h)⟩
  · exact .inr ⟨h, requireAll_fault fun hc => h (key.1 hc)⟩

theorem execGet_cases (s : State) :
    (64 < s.lenN ∧ execGet s = .next (s.raise .invalidRangeLength)) ∨
    (s.lenN ≤ 64 ∧ Safety.getDefined s ∧ execGet s = .next (afterGet s)) ∨
    (s.lenN ≤ 64 ∧ ¬Safety.getDefined s ∧ ∃ f, execGet s = .fault f) := by
  have key : (∀ c ∈ [(Fault.sourceOutsideMemory, arrayFits s s.sbN s.swN),
      (.rangeOutsideArray, rangeFits s.offN s.lenN s.swN)], c.2 = true) ↔ Safety.getDefined s := by
    simp only [List.forall_mem_cons, List.not_mem_nil, false_imp_iff, implies_true, and_true, arrayFits_iff,
      rangeFits_iff, Safety.getDefined]
  rcases Nat.lt_or_ge 64 s.lenN with hl | hl
  · exact .inl ⟨hl, by unfold execGet; rw [if_pos hl]⟩
  · unfold execGet
    rw [if_neg (show ¬s.lenN > Config.maxLen from Nat.not_lt.2 hl)]
    by_cases h : Safety.getDefined s
    · exact .inr (.inl ⟨hl, h, requireAll_of_all (key.2 h)⟩)
    · exact .inr (.inr ⟨hl, h, requireAll_fault fun hc => h (key.1 hc)⟩)

theorem execOverwrite_cases (s : State) :
    (64 < s.lenN ∧ execOverwrite s = .next (s.raise .invalidRangeLength)) ∨
    (s.lenN ≤ 64 ∧ Safety.overwriteDefined s ∧ execOverwrite s = .next (afterOverwrite s)) ∨
    (s.lenN ≤ 64 ∧ ¬Safety.overwriteDefined s ∧ ∃ f, execOverwrite s = .fault f) := by
  have key : (∀ c ∈ [(Fault.destinationOutsideMemory, arrayFits s s.dbN s.dwN),
      (.rangeOutsideArray, rangeFits s.offN s.lenN s.dwN)], c.2 = true) ↔ Safety.overwriteDefined s := by
    simp only [List.forall_mem_cons, List.not_mem_nil, false_imp_iff, implies_true, and_true, arrayFits_iff,
      rangeFits_iff, Safety.overwriteDefined]
  rcases Nat.lt_or_ge 64 s.lenN with hl | hl
  · exact .inl ⟨hl, by unfold execOverwrite; rw [if_pos hl]⟩
  · unfold execOverwrite
    rw [if_neg (show ¬s.lenN > Config.maxLen from Nat.not_lt.2 hl)]
    by_cases h : Safety.overwriteDefined s
    · exact .inr (.inl ⟨hl, h, requireAll_of_all (key.2 h)⟩)
    · exact .inr (.inr ⟨hl, h, requireAll_fault fun hc => h (key.1 hc)⟩)

theorem execCopy_cases (s : State) :
    ((s.lenN = 0 ∨ Safety.copyDefined s) ∧ execCopy s = .next (afterCopy s)) ∨
    (¬(s.lenN = 0 ∨ Safety.copyDefined s) ∧ ∃ f, execCopy s = .fault f) := by
  have key : (∀ c ∈ [(Fault.sourceOutsideMemory, s.lenN == 0 || arrayFits s s.sbN s.swN),
      (.destinationOutsideMemory, s.lenN == 0 || arrayFits s s.dbN s.dwN),
      (.copyRangeOutsideArray, s.lenN == 0 || decide (s.offN + s.lenN ≤ 64 * s.swN)),
      (.copyRangeOutsideArray, s.lenN == 0 || decide (s.auxN + s.lenN ≤ 64 * s.dwN))], c.2 = true) ↔
      (s.lenN = 0 ∨ Safety.copyDefined s) := by
    simp only [List.forall_mem_cons, List.not_mem_nil, false_imp_iff, implies_true, and_true, Bool.or_eq_true,
      arrayFits_iff, beq_iff_eq, decide_eq_true_eq, Safety.copyDefined]
    tauto
  by_cases h : s.lenN = 0 ∨ Safety.copyDefined s
  · exact .inl ⟨h, requireAll_of_all (key.2 h)⟩
  · exact .inr ⟨h, requireAll_fault fun hc => h (key.1 hc)⟩

theorem execInsert_cases (s : State) :
    (Safety.insertDefined s ∧ execInsert s = .next (afterInsert s)) ∨
    (¬Safety.insertDefined s ∧ ∃ f, execInsert s = .fault f) := by
  have key : (∀ c ∈ (Fault.declaredExtentMismatch, s.swN == wordsFor s.auxN) ::
      (.spliceOutsideVector, decide (s.offN ≤ s.auxN)) :: spliceChecks s (wordsFor (s.auxN + s.lenN)), c.2 = true) ↔
      Safety.insertDefined s := by
    simp only [spliceChecks, List.forall_mem_cons, List.not_mem_nil, false_imp_iff, implies_true, and_true,
      arrayFits_iff, shareNoWord_iff, beq_iff_eq, decide_eq_true_eq, wordsFor_eq, Safety.insertDefined]
  by_cases h : Safety.insertDefined s
  · exact .inl ⟨h, requireAll_of_all (key.2 h)⟩
  · exact .inr ⟨h, requireAll_fault fun hc => h (key.1 hc)⟩

theorem execRemove_cases (s : State) :
    (Safety.removeDefined s ∧ execRemove s = .next (afterRemove s)) ∨
    (¬Safety.removeDefined s ∧ ∃ f, execRemove s = .fault f) := by
  have key : (∀ c ∈ (Fault.declaredExtentMismatch, s.swN == wordsFor s.auxN) ::
      (.spliceOutsideVector, decide (s.offN + s.lenN ≤ s.auxN)) :: spliceChecks s (wordsFor (s.auxN - s.lenN)),
      c.2 = true) ↔ Safety.removeDefined s := by
    simp only [spliceChecks, List.forall_mem_cons, List.not_mem_nil, false_imp_iff, implies_true, and_true,
      arrayFits_iff, shareNoWord_iff, beq_iff_eq, decide_eq_true_eq, wordsFor_eq, Safety.removeDefined]
  by_cases h : Safety.removeDefined s
  · exact .inl ⟨h, requireAll_of_all (key.2 h)⟩
  · exact .inr ⟨h, requireAll_fault fun hc => h (key.1 hc)⟩

theorem execInterleave_cases (s : State) :
    (Safety.interleaveDefined s ∧ execInterleave s = .next (afterInterleave s)) ∨
    (¬Safety.interleaveDefined s ∧ ∃ f, execInterleave s = .fault f) := by
  have key : (∀ c ∈ [(Fault.declaredExtentMismatch, decide (s.auxN * wordsFor s.lenN ≤ s.swN)),
      (.sourceOutsideMemory, arrayFits s s.sbN s.swN),
      (.newArrayOutsideMemory, arrayFits s s.dbN (wordsFor (s.lenN * s.auxN))),
      (.newArrayOverlapsSource, shareNoWord s.sbN s.swN s.dbN (wordsFor (s.lenN * s.auxN)))], c.2 = true) ↔
      Safety.interleaveDefined s := by
    simp only [List.forall_mem_cons, List.not_mem_nil, false_imp_iff, implies_true, and_true, arrayFits_iff,
      shareNoWord_iff, decide_eq_true_eq, wordsFor_eq, Safety.interleaveDefined]
  by_cases h : Safety.interleaveDefined s
  · exact .inl ⟨h, requireAll_of_all (key.2 h)⟩
  · exact .inr ⟨h, requireAll_fault fun hc => h (key.1 hc)⟩

/-! ## Small facts the claims about the commands rest on -/

/-- Word ranges that share no word have no word in common. -/
theorem words_apart {a n b m : Nat} (h : Safety.disjointWords a n b m) : ∀ i j, i < n → j < m → a + i ≠ b + j := by
  intro i j hi hj
  rcases h with h | h | h | h <;> omega

/-- `R0` holds the word count of a new array that fits in `WMEM` (00_scope R9, R37). -/
theorem toNat_ofNat_words {s : State} {base n : Nat} (h : Safety.inMemory s base n) : (BitVec.ofNat 64 n).toNat = n := by
  have h1 : s.aw.val ≤ 57 := Nat.lt_succ_iff.1 s.aw.isLt
  have h2 : 2 ^ s.aw.val ≤ 2 ^ 57 := Nat.pow_le_pow_right (by decide) h1
  rw [BitVec.toNat_ofNat, Nat.mod_eq_of_lt]
  unfold Safety.inMemory at h
  omega

end Sys2Proof.Machine
end

