-- ==== Sys2Proof/Laws/HostLines.lean ====
section
/-! SUPPORT. What lines of host text stand for (30_encoding R69 to R73). -/

namespace Sys2Proof.Machine

/-- A line stands for a transaction exactly when its values fit. -/
theorem lineEvent_isSome_iff (aw : Nat) (l : HostLine) : (lineEvent aw l).isSome ↔ lineFits aw l = true := by
  unfold lineEvent
  split
  · rename_i h
    cases l <;> simp [h]
  · rename_i h
    simp [h]

/-- What a line stands for is a transaction the core answers (46_host_port R171 to R175). -/
theorem wf_of_lineEvent {aw : Nat} {l : HostLine} {e : Event} (h : lineEvent aw l = some e) : e.wf aw = true := by
  unfold lineEvent at h
  split at h
  · rename_i hf
    cases l <;> cases h <;> simp_all [lineFits, Event.wf, Config.memWords]
  · cases h

/-- Lines stand for events one by one, all of them or none. -/
theorem lineEvents_eq_some_iff (aw : Nat) (ls : List HostLine) (es : List Event) :
    lineEvents aw ls = some es ↔ es.map some = ls.map (lineEvent aw) := by
  induction ls generalizing es with
  | nil => cases es <;> simp [lineEvents]
  | cons l ls ih =>
    unfold lineEvents
    cases hl : lineEvent aw l with
    | none => cases es <;> simp [hl]
    | some e =>
      cases hls : lineEvents aw ls with
      | none =>
        cases es with
        | nil => simp
        | cons e' es =>
          have := (ih es).not.1 (by simp [hls])
          simp_all
      | some es' =>
        cases es with
        | nil => simp
        | cons e' es =>
          rw [List.map_cons, List.map_cons, List.cons.injEq, ← ih es, hls, hl]
          simp only [Option.some.injEq, List.cons.injEq]
          exact and_congr_left' eq_comm

/-- What is read from text fits. -/
theorem lineFits_of_readLine {aw : Nat} {text : String} {ls : List HostLine} (h : readLine aw text = some ls) :
    ∀ l ∈ ls, lineFits aw l = true := by
  unfold readLine at h
  split at h
  · split at h
    · rename_i hf
      cases h
      exact List.all_eq_true.1 hf
    · cases h
  · cases h

/-! ## Digits -/

theorem digitValue_hexDigit {d : Nat} (h : d < 16) : digitValue 16 (hexDigit d) = some d := by
  interval_cases d <;> decide

/-- No hexadecimal digit is a separator of the notation. -/
theorem hexDigit_plain {d : Nat} (h : d < 16) :
    hexDigit d ≠ '_' ∧ hexDigit d ≠ ';' ∧ hexDigit d ≠ ',' ∧ isBlank (hexDigit d) = false := by
  interval_cases d <;> decide

/-! ## Text without separators -/

theorem dropComment_of_plain {l : List Char} (h : ∀ c ∈ l, c ≠ ';') : dropComment l = l := by
  induction l with
  | nil => rfl
  | cons c l ih => rw [dropComment, if_neg (h c (by simp)), ih fun c hc => h c (by simp [hc])]

theorem splitChars_of_plain {isSep : Char → Bool} {l : List Char} (h : ∀ c ∈ l, isSep c = false) :
    splitChars isSep l = [l] := by
  induction l with
  | nil => rfl
  | cons c l ih => simp [splitChars, h c (by simp), ih fun c hc => h c (by simp [hc])]

/-- Text that begins and ends with no blank is trimmed already. -/
theorem trimBlanks_of_plain {c d : Char} {l : List Char} (hc : isBlank c = false) (hd : isBlank d = false) :
    trimBlanks (c :: (l ++ [d])) = c :: (l ++ [d]) := by
  unfold trimBlanks
  rw [List.dropWhile_cons, hc]
  simp only [Bool.false_eq_true, if_false, List.reverse_cons, List.reverse_append, List.reverse_nil, List.nil_append,
    List.cons_append, List.dropWhile_cons, hd]
  simp

end Sys2Proof.Machine
end

