-- ==== Sys2Proof/Laws/PerInstr.lean ====
section
/-! SUPPORT. What holds of every instruction as syntax, one lemma per constructor (30_encoding R61, R66). -/

namespace Sys2Proof.Laws.CommandWordShape

/-- The command word has 24 zero bits above the opcode, and is one of the eight well-formed words. -/
def Statement (i : Instr) : Prop :=
  zeroField (encode i) = 0 ∧ opcodeField (encode i) = opcode i ∧ CommandWord.wf (encode i) = true ∧ i.wf = true

theorem create : Statement .create := by unfold Statement; decide
theorem compare : Statement .compare := by unfold Statement; decide
theorem get : Statement .get := by unfold Statement; decide
theorem overwrite : Statement .overwrite := by unfold Statement; decide
theorem copy : Statement .copy := by unfold Statement; decide
theorem insert : Statement .insert := by unfold Statement; decide
theorem remove : Statement .remove := by unfold Statement; decide
theorem interleave : Statement .interleave := by unfold Statement; decide

end Sys2Proof.Laws.CommandWordShape
end

