-- ==== Sys2Proof/Laws/RangeCodec.lean ====
section
/-! SUPPORT. The range codec bit by bit (41_range_codec R92, R97). -/

namespace Sys2Proof.Machine

open Safety (bitAt)

/-- Bit `k` of the value GET reads: bit `off + k` of the array, 0 at and above `len` (41_range_codec R92). -/
theorem getLsbD_getRange (m : Memory) (base off len k : Nat) (h : len ≤ 64) :
    (getRange m base off len).getLsbD k = (decide (k < len) && bitAt m base (off + k)) := by
  rcases Nat.lt_or_ge k 64 with hk | hk
  · have h1 : off % 64 < 64 := Nat.mod_lt _ (by decide)
    have ht : lowPart off len = min len (64 - off % 64) := rfl
    unfold getRange Safety.bitAt
    by_cases hs : len > lowPart off len
    · rw [ht] at hs
      simp only [ht, if_pos hs, wordIdx, bitIdx]
      rw [Nat.min_eq_right (by omega)]
      simp only [BitVec.getLsbD_or, BitVec.getLsbD_and, getLsbD_lsr, getLsbD_maskBelow, getLsbD_lsl, hk, decide_true,
        Bool.true_and]
      by_cases hlow : k < 64 - off % 64
      · rw [show (off + k) / 64 = off / 64 by omega, show (off + k) % 64 = off % 64 + k by omega]
        simp [hlow, show k < len by omega]
      · rw [show (off + k) / 64 = off / 64 + 1 by omega, show (off + k) % 64 = k - (64 - off % 64) by omega, ← Nat.add_assoc]
        by_cases hkl : k < len
        · simp [hlow, hkl, show k - (64 - off % 64) < 64 by omega, show k - (64 - off % 64) < len - (64 - off % 64) by omega]
        · simp [hlow, hkl, show ¬k - (64 - off % 64) < len - (64 - off % 64) by omega]
    · rw [ht] at hs
      simp only [ht, if_neg hs, wordIdx, bitIdx]
      rw [Nat.min_eq_left (by omega)]
      simp only [BitVec.getLsbD_and, getLsbD_lsr, getLsbD_maskBelow, hk, decide_true, Bool.true_and]
      by_cases hkl : k < len
      · rw [show (off + k) / 64 = off / 64 by omega, show (off + k) % 64 = off % 64 + k by omega]
        simp [hkl]
      · simp [hkl]
  · rw [BitVec.getLsbD_of_ge _ _ hk]
    simp; omega

/-- The bits of the first word after OVERWRITE. -/
theorem getLsbD_overwriteLow (w0 val : Word) (off len k : Nat) (hk : k < 64) :
    (overwriteLow w0 val off len).getLsbD k =
      if off % 64 ≤ k ∧ k < off % 64 + min len (64 - off % 64) then val.getLsbD (k - off % 64) else w0.getLsbD k := by
  unfold overwriteLow
  simp only [lowPart, bitIdx, BitVec.getLsbD_or, BitVec.getLsbD_and, BitVec.getLsbD_not, getLsbD_lsl,
    getLsbD_maskBelow, hk, decide_true, Bool.true_and]
  generalize min len (64 - off % 64) = t
  by_cases h : k < off % 64
  · rw [if_neg (by omega)]; simp [h]
  · by_cases h' : k < off % 64 + t
    · rw [if_pos (by omega)]
      simp [h, show k - off % 64 < 64 by omega, show k - off % 64 < t by omega]
    · rw [if_neg (by omega)]
      simp [show ¬k - off % 64 < t by omega]

/-- The bits of the second word after a straddling OVERWRITE. -/
theorem getLsbD_overwriteHigh (w1 val : Word) (off len k : Nat) (hk : k < 64) :
    (overwriteHigh w1 val off len).getLsbD k =
      if k < len - min len (64 - off % 64) then val.getLsbD (min len (64 - off % 64) + k) else w1.getLsbD k := by
  unfold overwriteHigh
  simp only [lowPart, bitIdx, BitVec.getLsbD_or, BitVec.getLsbD_and, BitVec.getLsbD_not, getLsbD_lsr,
    getLsbD_maskBelow, hk, decide_true, Bool.true_and]
  split <;> simp [*]

/-- OVERWRITE writes only words of an array that holds the range (41_range_codec R97). -/
theorem confined_overwriteRange (m : Memory) {base off len n : Nat} (val : Word) (h : Safety.rangeInside off len n) :
    Confined m (overwriteRange m base off len val) base n := by
  unfold overwriteRange
  obtain ⟨h1, h2⟩ := h
  have hlow := confined_writeWord (base := base) (n := n) m (a := base + off / 64)
    (overwriteLow (m.readWord (base + off / 64)) val off len) (Nat.le_add_right _ _) (by omega)
  split
  · exact hlow.trans (confined_writeWord _ _ (by unfold wordIdx; omega) (by
      rename_i hs
      have := h2 (by unfold lowPart bitIdx at hs; omega)
      unfold wordIdx
      omega))
  · exact hlow

/-- The array after OVERWRITE: the range holds the low bits of `val`, every other bit is as before (41_range_codec
R97). -/
theorem bitAt_overwriteRange (m : Memory) (base off len g : Nat) (val : Word) (h : len ≤ 64) :
    bitAt (overwriteRange m base off len val) base g =
      if off ≤ g ∧ g < off + len then val.getLsbD (g - off) else bitAt m base g := by
  have h1 : off % 64 < 64 := Nat.mod_lt _ (by decide)
  have h2 : g % 64 < 64 := Nat.mod_lt _ (by decide)
  unfold overwriteRange Safety.bitAt
  simp only
  split
  · rename_i hs
    unfold lowPart bitIdx at hs
    unfold wordIdx
    rw [Memory.readWord_writeWord,
      Memory.readWord_writeWord_ne m _ (show base + off / 64 + 1 ≠ base + off / 64 by omega), Memory.readWord_writeWord m]
    by_cases e1 : g / 64 = off / 64 + 1
    · rw [if_pos (by omega), getLsbD_overwriteHigh _ _ _ _ _ h2, e1, Nat.add_assoc]
      by_cases hg : g < off + len
      · rw [if_pos (by omega), if_pos (by omega)]
        congr 1
        omega
      · rw [if_neg (by omega), if_neg (by omega)]
    · rw [if_neg (by omega)]
      by_cases e0 : g / 64 = off / 64
      · rw [if_pos (by omega), getLsbD_overwriteLow _ _ _ _ _ h2, e0]
        by_cases hg : off ≤ g
        · rw [if_pos (by omega), if_pos (by omega)]
          congr 1
          omega
        · rw [if_neg (by omega), if_neg (by omega)]
      · rw [if_neg (by omega), if_neg (by omega)]
  · rename_i hs
    unfold lowPart bitIdx at hs
    unfold wordIdx
    rw [Memory.readWord_writeWord]
    by_cases e0 : g / 64 = off / 64
    · rw [if_pos (by omega), getLsbD_overwriteLow _ _ _ _ _ h2, e0]
      by_cases hg : off ≤ g ∧ g < off + len
      · rw [if_pos (by omega), if_pos hg]
        congr 1
        omega
      · rw [if_neg (by omega), if_neg hg]
    · rw [if_neg (by omega), if_neg (by omega)]

end Sys2Proof.Machine
end

