-- ==== Sys2Proof/Laws/Step.lean ====
section
/-! SUPPORT. What a command and a step can do, each said once. -/

namespace Sys2Proof.Machine

/-! ## `STATUS` at the end of a command -/

theorem statusCompleted_of_setErr {s t : State} (h : t.status = setErr s.status okCode) : Safety.statusCompleted s t :=
  h.trans (setErr_okCode _)

theorem statusRaised_raise (s : State) (c : Condition) :
    Safety.statusRaised s (s.raise c) ((conditionCode c).setWidth 64) := by
  show setSticky (setErr s.status (conditionCode c)) = _
  apply BitVec.eq_of_getLsbD_eq
  intro i hi
  simp only [getLsbD_setSticky, getLsbD_setErr, BitVec.getLsbD_or, BitVec.getLsbD_and, BitVec.getLsbD_not, hi,
    BitVec.getLsbD_setWidth, decide_true, Bool.true_and]
  interval_cases i <;> cases c <;> simp [conditionCode]

/-! ## A command -/

/-- What a command that answers a state can have done: it raised InvalidRangeLength and changed `STATUS` alone, or it
completed, writing at most the words `[DB, DB + n)`, `R0` and `STATUS.ERR`. -/
inductive Answer (i : Instr) (s t : State) : Prop where
  | raised (instr : i = .get ∨ i = .overwrite) (long : 64 < s.lenN) (eq : t = s.raise .invalidRangeLength)
  | completed (m : Memory) (v : Word) (n : Nat) (short : i = .get ∨ i = .overwrite → s.lenN ≤ 64)
      (quiet : i = .get ∨ i = .compare → m = s.mem)
      (fits : m = s.mem ∨ s.dbN + n ≤ 2 ^ s.aw.val) (frame : Confined s.mem m s.dbN n)
      (eq : t = ((s.setMem m).setR0 v).complete)

theorem confined_afterCreate (s : State) : Confined s.mem (afterCreate s).mem s.dbN (Safety.ceilWords s.lenN) := by
  rw [← wordsFor_eq]
  exact confined_zeroFill _ _ _

theorem confined_afterOverwrite {s : State} (h : Safety.overwriteDefined s) :
    Confined s.mem (afterOverwrite s).mem s.dbN s.dwN := confined_overwriteRange _ _ h.2

theorem confined_afterCopy {s : State} (h : Safety.copyDefined s) : Confined s.mem (afterCopy s).mem s.dbN s.dwN :=
  confined_copyBits _ fun _ => by have := h.2.2.2; omega

theorem confined_afterInsert {s : State} (h : Safety.insertDefined s) :
    Confined s.mem (afterInsert s).mem s.dbN (Safety.ceilWords (s.auxN + s.lenN)) := by
  rw [← wordsFor_eq]
  have := h.2.1
  refine confined_splice _ ?_ fun _ => ?_ <;> · rw [wordsFor_eq]; unfold Safety.ceilWords; omega

theorem confined_afterRemove {s : State} (h : Safety.removeDefined s) :
    Confined s.mem (afterRemove s).mem s.dbN (Safety.ceilWords (s.auxN - s.lenN)) := by
  rw [← wordsFor_eq]
  have := h.2.1
  refine confined_splice _ ?_ fun _ => ?_ <;> · rw [wordsFor_eq]; unfold Safety.ceilWords; omega

/-- The source words INTERLEAVE reads are apart from its new array. -/
theorem interleave_apart {s : State} (h : Safety.interleaveDefined s) :
    ∀ i j, i < s.auxN * Safety.ceilWords s.lenN → j < Safety.ceilWords (s.lenN * s.auxN) → s.sbN + i ≠ s.dbN + j :=
  fun i j hi hj => words_apart h.2.2.2 i j (Nat.lt_of_lt_of_le hi h.1) hj

theorem confined_afterInterleave {s : State} (h : Safety.interleaveDefined s) :
    Confined s.mem (afterInterleave s).mem s.dbN (Safety.ceilWords (s.lenN * s.auxN)) :=
  confined_interleaveBits _ (interleave_apart h)

theorem exec_answer {i : Instr} {s t : State} (h : exec i s = .next t) : Answer i s t := by
  cases i with
  | create =>
    rcases execCreate_cases s with ⟨d, e⟩ | ⟨-, f, e⟩ <;> cases e.symm.trans h
    exact .completed _ _ _ (by simp) (by simp) (.inr d) (confined_afterCreate s) rfl
  | compare =>
    rcases execCompare_cases s with ⟨d, e⟩ | ⟨-, f, e⟩ <;> cases e.symm.trans h
    exact .completed s.mem _ 0 (by simp) (by simp) (.inl rfl) (.refl _ _ _) rfl
  | get =>
    rcases execGet_cases s with ⟨l, e⟩ | ⟨l, d, e⟩ | ⟨-, -, f, e⟩ <;> cases e.symm.trans h
    · exact .raised (.inl rfl) l rfl
    · exact .completed s.mem _ 0 (fun _ => l) (by simp) (.inl rfl) (.refl _ _ _) rfl
  | overwrite =>
    rcases execOverwrite_cases s with ⟨l, e⟩ | ⟨l, d, e⟩ | ⟨-, -, f, e⟩ <;> cases e.symm.trans h
    · exact .raised (.inr rfl) l rfl
    · exact .completed _ s.r0 s.dwN (fun _ => l) (by simp) (.inr d.1) (confined_afterOverwrite d) rfl
  | copy =>
    rcases execCopy_cases s with ⟨d, e⟩ | ⟨-, f, e⟩ <;> cases e.symm.trans h
    rcases d with d | d
    · refine .completed s.mem s.r0 0 (by simp) (by simp) (.inl rfl) (.refl _ _ _) ?_
      unfold afterCopy
      rw [copyBits_done _ (show s.offN + s.lenN ≤ s.offN by omega)]
      rfl
    · exact .completed _ s.r0 s.dwN (by simp) (by simp) (.inr d.2.1) (confined_afterCopy d) rfl
  | insert =>
    rcases execInsert_cases s with ⟨d, e⟩ | ⟨-, f, e⟩ <;> cases e.symm.trans h
    exact .completed _ _ _ (by simp) (by simp) (.inr d.2.2.2.1) (confined_afterInsert d) rfl
  | remove =>
    rcases execRemove_cases s with ⟨d, e⟩ | ⟨-, f, e⟩ <;> cases e.symm.trans h
    exact .completed _ _ _ (by simp) (by simp) (.inr d.2.2.2.1) (confined_afterRemove d) rfl
  | interleave =>
    rcases execInterleave_cases s with ⟨d, e⟩ | ⟨-, f, e⟩ <;> cases e.symm.trans h
    exact .completed _ _ _ (by simp) (by simp) (.inr d.2.2.1) (confined_afterInterleave d) rfl

/-- No command is refused. -/
theorem exec_not_refused (i : Instr) (s : State) (r : Refusal) : exec i s ≠ .refused r := by
  intro h
  cases i with
  | create => rcases execCreate_cases s with ⟨-, e⟩ | ⟨-, f, e⟩ <;> cases e.symm.trans h
  | compare => rcases execCompare_cases s with ⟨-, e⟩ | ⟨-, f, e⟩ <;> cases e.symm.trans h
  | get => rcases execGet_cases s with ⟨-, e⟩ | ⟨-, -, e⟩ | ⟨-, -, f, e⟩ <;> cases e.symm.trans h
  | overwrite => rcases execOverwrite_cases s with ⟨-, e⟩ | ⟨-, -, e⟩ | ⟨-, -, f, e⟩ <;> cases e.symm.trans h
  | copy => rcases execCopy_cases s with ⟨-, e⟩ | ⟨-, f, e⟩ <;> cases e.symm.trans h
  | insert => rcases execInsert_cases s with ⟨-, e⟩ | ⟨-, f, e⟩ <;> cases e.symm.trans h
  | remove => rcases execRemove_cases s with ⟨-, e⟩ | ⟨-, f, e⟩ <;> cases e.symm.trans h
  | interleave => rcases execInterleave_cases s with ⟨-, e⟩ | ⟨-, f, e⟩ <;> cases e.symm.trans h

/-! ## A step -/

/-- `ISSUE` of a word that is no command's. -/
theorem issue_illegal {w : CommandWord} (h : ∀ i, decode w ≠ .ok i) (s : State) :
    issue w s = .next (s.raise .illegalCommand) := by
  unfold issue
  split
  · rfl
  · rename_i i hi
    exact absurd hi (h i)

/-- `ISSUE` of a command's word. -/
theorem issue_legal {w : CommandWord} {i : Instr} (h : decode w = .ok i) (s : State) : issue w s = exec i s := by
  unfold issue
  rw [h]

/-- A step with an event pending. -/
theorem step_cons {s : State} {e : Event} {rest : List Event} (h : s.pending = e :: rest) :
    step s = serve e ((s.setPending rest).setReply none) := by
  unfold step serveNext
  rw [h]

/-- WR to an operand register. -/
theorem hostWrite_operand {r : Nat} {v : Word} {s : State} (h : r ≤ 7) :
    ∃ regs, s.regs.write? r v = some regs ∧ hostWrite r v s = .next (s.setRegs regs) := by
  obtain ⟨regs, hr⟩ := Option.isSome_iff_exists.1 ((OperandRegs.write?_some_iff s.regs r v).2 h)
  refine ⟨regs, hr, ?_⟩
  unfold hostWrite
  split <;> first | omega | rw [hr]

/-- WR to a number that is no register's. -/
theorem hostWrite_none {r : Nat} {v : Word} {s : State} (h : 10 < r) :
    hostWrite r v s = .refused (.noSuchRegister r) := by
  unfold hostWrite
  split <;> first | omega | rw [OperandRegs.write?_none _ _ _ (by omega)]

/-- RD of a register that exists, and of a number that is none. -/
theorem readReg?_isSome_iff (s : State) (r : Nat) : (s.readReg? r).isSome ↔ r ≤ 10 := by
  unfold State.readReg?
  split
  · simp
  · simp
  · simp
  · rename_i h8 h9 h10
    have h8 : r ≠ 8 := h8
    have h9 : r ≠ 9 := h9
    have h10 : r ≠ 10 := h10
    rw [OperandRegs.read?_some_iff]
    omega

/-- The reset event with contents for words that exist. -/
theorem platformReset_next {contents : List (Nat × Word)} {s : State} (h : ∀ c ∈ contents, c.1 < s.memWords) :
    platformReset contents s = .next (s.afterReset contents) := by
  unfold platformReset
  rw [List.find?_eq_none.2 (by simpa using h)]

/-- The reset event with contents for a word that does not exist. -/
theorem platformReset_refused {contents : List (Nat × Word)} {s : State} (h : ¬∀ c ∈ contents, c.1 < s.memWords) :
    ∃ r, platformReset contents s = .refused r := by
  unfold platformReset
  split
  · exact ⟨_, rfl⟩
  · rename_i hn
    exact absurd (by simpa using List.find?_eq_none.1 hn) h

/-- What serving an event can have done when it answers a state: run a command, raise IllegalCommand, write an operand
register, ignore a write to `R0`, act on `STATUS`, answer a read, write a word, or reset. -/
inductive Served (e : Event) (s t : State) : Prop where
  | command (i : Instr) (issues : Safety.commandOf e = some i) (run : exec i s = .next t)
  | illegal (none : Safety.commandOf e = none) (src : (∃ w, e = .issue w) ∨ ∃ v, e = .wr 10 v)
      (eq : t = s.raise .illegalCommand)
  | operand (r : Nat) (v : Word) (src : e = .wr r v) (num : r ≤ 7) (regs : OperandRegs)
      (wrote : s.regs.write? r v = some regs) (eq : t = s.setRegs regs)
  | result (v : Word) (src : e = .wr 8 v) (eq : t = s)
  | status (v : Word) (src : e = .wr 9 v) (eq : t = s.hostWriteStatus v)
  | read (src : (∃ r, e = .rd r) ∨ ∃ a, e = .rdw a) (v : Word) (eq : t = s.setReply (some v))
  | word (a : Nat) (v : Word) (src : e = .wrw a v) (exist : a < s.memWords) (eq : t = s.setMem (s.mem.writeWord a v))
  | reset (contents : List (Nat × Word)) (src : e = .reset contents) (exist : ∀ c ∈ contents, c.1 < s.memWords)
      (eq : t = s.afterReset contents)

theorem served_of_issue {e : Event} {s t : State} {w : CommandWord} (he : Safety.commandOf e = (decode w).toOption)
    (src : (∃ w, e = .issue w) ∨ ∃ v, e = .wr 10 v) (h : issue w s = .next t) : Served e s t := by
  unfold issue at h
  split at h
  · rename_i hd
    cases h
    exact .illegal (by rw [he, hd]; rfl) src rfl
  · rename_i i hd
    exact .command i (by rw [he, hd]; rfl) h

theorem served {e : Event} {s t : State} (h : serve e s = .next t) : Served e s t := by
  cases e with
  | wr r v =>
    have h : hostWrite r v s = .next t := h
    rcases Nat.lt_or_ge 7 r with hr | hr
    · rcases Nat.lt_or_ge 10 r with hr' | hr'
      · rw [hostWrite_none hr'] at h
        cases h
      · interval_cases r
        · cases h
          exact .result v rfl rfl
        · cases h
          exact .status v rfl rfl
        · exact served_of_issue (w := v.setWidth 32) rfl (.inr ⟨v, rfl⟩) h
    · obtain ⟨regs, h1, h2⟩ := hostWrite_operand (v := v) (s := s) hr
      rw [h2] at h
      cases h
      exact .operand r v rfl hr regs h1 rfl
  | rd r =>
    simp only [serve, hostRead] at h
    split at h <;> cases h
    exact .read (.inl ⟨r, rfl⟩) _ rfl
  | wrw a v =>
    simp only [serve, hostWriteWord] at h
    split at h <;> cases h
    exact .word a v rfl ‹_› rfl
  | rdw a =>
    simp only [serve, hostReadWord] at h
    split at h <;> cases h
    exact .read (.inr ⟨a, rfl⟩) _ rfl
  | issue w => exact served_of_issue (w := w) rfl (.inl ⟨w, rfl⟩) h
  | reset contents =>
    have h : platformReset contents s = .next t := h
    by_cases hc : ∀ c ∈ contents, c.1 < s.memWords
    · rw [platformReset_next hc] at h
      cases h
      exact .reset contents rfl hc rfl
    · obtain ⟨r, hr⟩ := platformReset_refused hc
      rw [hr] at h
      cases h

/-! ## Runs -/

/-- A run of one step is that step. -/
theorem run_one (s : State) : core.run 1 s = step s := by
  simp only [Host.Core.run, core]
  cases step s <;> rfl

/-- A run goes on from the state its first step answers. -/
theorem run_succ {k : Nat} {s s' : State} (h : step s = .next s') : core.run (k + 1) s = core.run k s' := by
  simp only [Host.Core.run, core, h]

/-- WR to an operand register as a step. -/
theorem step_operand {s : State} {r : Nat} {v : Word} {rest : List Event} {regs : OperandRegs}
    (h : s.pending = .wr r v :: rest) (hr : s.regs.write? r v = some regs) :
    step s = .next { s with
      regs := regs
      pending := rest
      reply := none } := by
  obtain ⟨regs', h1, h2⟩ := hostWrite_operand (v := v) (s := (s.setPending rest).setReply none)
    ((OperandRegs.write?_some_iff s.regs r v).1 (by rw [hr]; rfl))
  cases hr.symm.trans h1
  exact (step_cons h).trans h2

end Sys2Proof.Machine
end

