-- ==== Sys2Proof/Tests/Slice0.lean ====
section
/-! SUPPORT. The spec's own vectors (95_test_vectors), command words written out from 30_encoding, ill-formed terms
the checks refuse, and for every statement with hypotheses a state that meets them. -/

namespace Sys2Proof.Tests

open Sys2Proof.Machine Sys2Proof.Safety

/-! ## Helpers -/

/-- The register file of a test. -/
def regs (sb sw db dw off aux len : Nat) (val : Word := 0) : OperandRegs :=
  ⟨BitVec.ofNat 64 sb, BitVec.ofNat 64 sw, BitVec.ofNat 64 db, BitVec.ofNat 64 dw, BitVec.ofNat 64 off,
    BitVec.ofNat 64 aux, BitVec.ofNat 64 len, val⟩

/-- A machine of 64 words with these registers and these words of `WMEM`, `R0 = 0x77`. -/
def machine (r : OperandRegs) (words : List (Nat × Word)) : State :=
  { State.reset with regs := r, r0 := 0x77, aw := 6, mem := contentsMem words }

/-- The machine with one event pending. -/
def facing (s : State) (e : Event) : State := s.setPending [e]

/-- `R0`, `STATUS` and some words of the state answered. -/
def outcome (r : Result) (addrs : List Nat) : Option (Word × Word × List Word) :=
  match r with
  | .next t => some (t.r0, t.status, addrs.map t.mem.readWord)
  | _ => none

/-- The fault answered. -/
def faultOf (r : Result) : Option Fault :=
  match r with
  | .fault f => some f
  | _ => none

/-- The refusal answered. -/
def refusalOf (r : Result) : Option Refusal :=
  match r with
  | .refused f => some f
  | _ => none

/-- A state was answered. -/
def completes (r : Result) : Bool :=
  match r with
  | .next _ => true
  | _ => false

theorem exists_of_completes {r : Result} (h : completes r = true) : ∃ t, r = .next t := by
  cases r with
  | next t => exact ⟨t, rfl⟩
  | fault f => cases h
  | refused f => cases h

/-- All ones. -/
abbrev ones : Word := 0xFFFFFFFFFFFFFFFF#64

/-! ## Command words, bit by bit from 30_encoding R61 and R66 -/

theorem test_decode_create : decode 0b00000000000000000000000000000001#32 = .ok .create := by decide
theorem test_decode_compare : decode 0b00000000000000000000000000000010#32 = .ok .compare := by decide
theorem test_decode_get : decode 0b00000000000000000000000000000011#32 = .ok .get := by decide
theorem test_decode_overwrite : decode 0b00000000000000000000000000000100#32 = .ok .overwrite := by decide
theorem test_decode_copy : decode 0b00000000000000000000000000000101#32 = .ok .copy := by decide
theorem test_decode_insert : decode 0b00000000000000000000000000000110#32 = .ok .insert := by decide
theorem test_decode_remove : decode 0b00000000000000000000000000000111#32 = .ok .remove := by decide
theorem test_decode_interleave : decode 0b00000000000000000000000000001000#32 = .ok .interleave := by decide

/-- V-ILL-1, V-ILL-2, V-ILL-3, V-ILL-5. -/
theorem test_decode_illegal :
    decode 0x00000000#32 = .error .unusedOpcode ∧ decode 0x00000009#32 = .error .unusedOpcode ∧
    decode 0x00000103#32 = .error .zeroFieldSet ∧ decode 0x80000001#32 = .error .zeroFieldSet := by decide

/-- No word selects two rows of the opcode map (30_encoding R66). -/
theorem test_rows_apart : opcodeMap.Pairwise (fun a b => a.pattern &&& (a.mask &&& b.mask) ≠ b.pattern &&& (a.mask &&& b.mask)) := by
  decide

/-- The table's words through the host's reader, and a width that is no command word's. -/
theorem test_decodeTableWord : decodeTableWord 32 0x00000007 = some .remove ∧ decodeTableWord 32 0x00000107 = none ∧
    decodeTableWord 48 7 = none := by decide

/-! ## What the well-formedness checks refuse. `Instr.wf` has no ill-formed term: no constructor has an operand. -/

theorem test_commandWord_wf : CommandWord.wf 0x00000008#32 = true ∧ CommandWord.wf 0x00000009#32 = false ∧
    CommandWord.wf 0x00000000#32 = false ∧ CommandWord.wf 0x01000001#32 = false := by decide
theorem test_aw_wf : awWf 1 = true ∧ awWf 57 = true ∧ awWf 0 = false ∧ awWf 58 = false := by decide
theorem test_event_wf : Event.wf 6 (.wr 10 0) = true ∧ Event.wf 6 (.wr 11 0) = false ∧ Event.wf 6 (.rd 11) = false ∧
    Event.wf 6 (.wrw 63 0) = true ∧ Event.wf 6 (.wrw 64 0) = false ∧ Event.wf 6 (.rdw 64) = false ∧
    Event.wf 6 (.reset [(0, 1), (64, 1)]) = false := by decide
theorem test_line_fits : lineFits 6 (.wr 11 0) = false ∧ lineFits 6 (.wr 0 (2 ^ 64)) = false ∧
    lineFits 6 (.rd 11) = false ∧ lineFits 6 (.wrw 64 0) = false ∧ lineFits 6 (.rdw 64) = false ∧
    lineFits 6 (.issueW (2 ^ 32)) = false ∧ lineFits 6 (.issueW (2 ^ 32 - 1)) = true := by decide
theorem test_memory_wf : Memory.wf [(3, 1#8), (2, 1#8)] = false ∧ Memory.wf [(2, 0#8)] = false ∧
    Memory.wf [(2, 1#8), (3, 1#8)] = true := by decide

/-! ## The vectors of 95_test_vectors -/

/-- Four words of ones at 0x20, the start of the CREATE vectors. -/
def createStart (len : Nat) : State :=
  machine (regs 0 0 0x20 0 0 0 len) [(0x20, ones), (0x21, ones), (0x22, ones), (0x23, ones)]

/-- V-CREATE-5. -/
theorem test_create_two_words :
    outcome (exec .create (createStart 65)) [0x20, 0x21, 0x22] = some (2, 0, [0, 0, ones]) := by decide
/-- V-CREATE-9 and its nearest accepted neighbour. -/
theorem test_create_at_the_top :
    faultOf (exec .create (machine (regs 0 0 0x3F 0 0 0 65) [])) = some .newArrayOutsideMemory ∧
    outcome (exec .create (machine (regs 0 0 0x3E 0 0 0 65) [(0x3F, ones)])) [0x3F] = some (2, 0, [0]) := by
  decide

/-- The two words of the GET vectors. -/
def getStart (off len : Nat) : State :=
  machine (regs 0 2 0 0 off 0 len) [(0, 0x0123456789ABCDEF#64), (1, 0xFEDCBA9876543210#64)]

/-- V-GET-8, V-GET-5. -/
theorem test_get_straddles :
    outcome (exec .get (getStart 32 64)) [] = some (0x7654321001234567#64, 0, []) ∧
    outcome (exec .get (getStart 1 64)) [] = some (0x0091A2B3C4D5E6F7#64, 0, []) := by decide
/-- V-GET-14, V-GET-15, V-GET-16. -/
theorem test_get_limits :
    outcome (exec .get (getStart (2 ^ 40) 70)) [] = some (0x77, 0x11, []) ∧
    faultOf (exec .get (getStart 128 0)) = some .rangeOutsideArray ∧
    faultOf (exec .get (getStart 120 9)) = some .rangeOutsideArray := by decide

/-- V-OVW-10. -/
theorem test_overwrite_straddles :
    outcome (exec .overwrite (machine (regs 0 0 0 2 58 0 12 0xABC) [(0, ones), (1, ones)])) [0, 1] =
      some (0x77, 0, [0xF3FFFFFFFFFFFFFF#64, 0xFFFFFFFFFFFFFFEA#64]) := by decide
/-- V-OVW-7. -/
theorem test_overwrite_long :
    outcome (exec .overwrite (machine (regs 0 0 0 2 0 0 65 ones) [(0, 0x1111#64)])) [0] =
      some (0x77, 0x11, [0x1111#64]) := by decide

/-- V-COPY-3, with the words of the destination 0 before. -/
theorem test_copy_over_copies :
    outcome (exec .copy (machine (regs 0 2 8 3 3 60 100)
      [(0, 0x0123456789ABCDEF#64), (1, 0xFEDCBA9876543210#64)])) [8, 9, 10] =
      some (0x77, 0, [0xD000000000000000#64, 0x2002468ACF13579B#64, 0x01FDB97530ECA864#64]) := by decide +kernel
/-- V-COPY-6: overlapping arrays. -/
theorem test_copy_aliased :
    outcome (exec .copy (machine (regs 0 2 0 2 0 60 8) [(0, 0xAB)])) [0, 1] =
      some (0x77, 0, [0xB0000000000000AB#64, 0x0B0000000000000A#64]) := by decide

/-- V-INS-3. -/
theorem test_insert_moves_the_tail :
    outcome (exec .insert (machine (regs 0 2 16 0 70 100 64)
      [(0, 0x0123456789ABCDEF#64), (1, 0x0000000FEDCBA987#64), (16, ones), (19, ones)])) [16, 17, 18, 19] =
      some (3, 0, [0x0123456789ABCDEF#64, 7, 0x0000000FEDCBA980#64, ones]) := by decide +kernel
/-- V-INS-8 and V-INS-12. -/
theorem test_insert_dirty_and_overlapping :
    outcome (exec .insert (machine (regs 0 1 16 0 60 60 4) [(0, ones)])) [16] = some (1, 0, [0x0FFFFFFFFFFFFFFF#64]) ∧
    faultOf (exec .insert (machine (regs 0 1 0 0 4 8 4) [(0, 0xFF)])) = some .newArrayOverlapsSource := by
  decide

/-- V-REM-6. -/
theorem test_remove_across_the_boundary :
    outcome (exec .remove (machine (regs 0 2 16 0 60 128 8)
      [(0, 0x0123456789ABCDEF#64), (1, 0xFEDCBA9876543210#64), (16, ones)])) [16, 17] =
      some (2, 0, [0x1123456789ABCDEF#64, 0x00FEDCBA98765432#64]) := by decide +kernel
/-- V-REM-8. -/
theorem test_remove_beyond :
    faultOf (exec .remove (machine (regs 0 1 16 0 10 12 4) [(0, 0xF0F)])) = some .spliceOutsideVector := by
  decide

/-- V-CMP-5 and V-CMP-8. -/
theorem test_compare_order :
    outcome (exec .compare (machine (regs 0 2 8 2 0 0 0) [(0, 1), (1, ones), (8, 2)])) [] = some (ones, 0, []) ∧
    outcome (exec .compare (machine (regs 0 1 8 1 0 0 0) [(0, 0x7FFFFFFFFFFFFFFF#64), (8, 0x8000000000000000#64)])) [] =
      some (ones, 0, []) := by decide
/-- V-CMP-9. -/
theorem test_compare_shape : faultOf (exec .compare (machine (regs 0 2 8 1 0 0 0) [])) = some .shapeMismatch := by
  decide

/-- V-ILV-2: the pattern of one word. -/
theorem test_interleave_order :
    outcome (exec .interleave (machine (regs 0 2 16 0 0 2 4) [(0, 0b1010), (1, 0b0110), (16, ones)])) [16] =
      some (1, 0, [0x9C]) := by decide +kernel
/-- V-ILV-12 and V-ILV-13. -/
theorem test_interleave_faults :
    faultOf (exec .interleave (machine (regs 0 1 16 0 0 2 2) [])) = some .declaredExtentMismatch ∧
    faultOf (exec .interleave (machine (regs 0 2 1 0 0 2 2) [])) = some .newArrayOverlapsSource := by decide

/-- V-HOST-1, V-HOST-2, V-HOST-4. -/
theorem test_host_writes :
    outcome (hostWrite 9 0x10 { machine (regs 0 0 0 0 0 0 0) [] with status := 0x11 }) [] = some (0x77, 0x01, []) ∧
    outcome (hostWrite 9 0x0F { machine (regs 0 0 0 0 0 0 0) [] with status := 0x11 }) [] = some (0x77, 0x11, []) ∧
    outcome (hostWrite 8 0x99 (machine (regs 0 0 0 0 0 0 0) [])) [] = some (0x77, 0, []) := by decide
/-- V-ILL-9: the decode comes first; V-HOST-10: the low 32 bits are the command word. -/
theorem test_issue :
    outcome (step (facing (getStart 128 0) (.issue 0x00000103#32))) [] = some (0x77, 0x12, []) ∧
    outcome (step (facing (getStart 12 16) (.wr 10 0xABCDEF0000000003#64))) [] = some (0x9ABC, 0, []) := by
  decide
/-- `withFetchWord` makes the word the very next thing: CREATE right after reset. -/
theorem test_withFetchWord :
    outcome (step (State.reset.withFetchWord 32 1)) [] = some (0, 0, []) ∧
    outcome (step (State.reset.withFetchWord 32 9)) [] = some (0, 0x12, []) := by decide

/-- Lines of 95_test_vectors P1 read as text (30_encoding R69 to R71). -/
theorem test_readLine :
    readLine 6 "WR DB, 0x10   ; destination" = some [.wr 2 16] ∧ readLine 6 "ISSUE.W 0x00000105" = some [.issueW 0x105] ∧
    readLine 6 "CREATE db=0x20, length=130" = some [.wr 2 0x20, .wr 6 130, .issue .create] ∧
    readLine 6 "CREATE db=0x20" = none ∧ readLine 6 "; nothing" = some [] := by decide
/-- Values that do not fit their target (30_encoding R70). -/
theorem test_readLine_too_large :
    readLine 6 "ISSUE.W 0x100000003" = none ∧ readLine 6 "RDW 64" = none ∧ readLine 6 "RDW 63" = some [.rdw 63] ∧
    readLine 6 "WR A0, 0x1_0000_0000_0000_0000" = none ∧ lineEvent 6 (.issueW 0x100000003) = none := by decide
/-- 30_encoding R73. -/
theorem test_disassemble : disassemble 0x00000005#32 = "COPY" ∧ disassemble 0x00000105#32 = "ISSUE.W 0x00000105" := by
  decide

/-! ## For every statement with hypotheses, states and operands that meet them all -/

/-- A vector of 100 bits in two words, clean, with room for a new array at 16 (95_test_vectors P2). -/
def vectorStart (off aux len : Nat) : State :=
  machine (regs 0 2 16 2 off aux len) [(0, 0x0123456789ABCDEF#64), (1, 0x0000000FEDCBA987#64), (16, ones)]

/-- A machine with `STATUS = 0x11`. -/
def sticky : State := { machine (regs 0 1 8 1 0 0 4) [(0, 7)] with status := 0x11 }

/-- Whether a word is outside the opcode map, as 30_encoding R67 says it. -/
def illegalNumber (w : CommandWord) : Bool := w.toNat / 256 ≠ 0 ∨ w.toNat % 256 = 0 ∨ 9 ≤ w.toNat % 256

theorem witness_IllegalWordsRaiseIllegalCommand :
    [0x00000000#32, 0x00000009#32, 0x000000FF#32, 0x00000103#32, 0xFFFFFFFF#32].all illegalNumber = true ∧
    illegalNumber 0x00000008#32 = false ∧
    (facing sticky (.issue 0x00000103#32)).pending = .issue 0x00000103#32 :: [] := by decide

theorem witness_EncodeAndDecodeAgree : Instr.wf .interleave = true ∧ decode 0x00000001#32 = .ok .create := by decide

theorem witness_StepRunsTheIssuedCommand :
    (facing sticky (.issue 3)).pending = .issue 3 :: [] ∧ decode 3 = .ok .get ∧
    (facing sticky (.wr 10 0xABCDEF0000000003#64)).pending = .wr 10 0xABCDEF0000000003#64 :: [] ∧
    decode ((0xABCDEF0000000003#64 : Word).setWidth 32) = .ok .get := by decide

theorem witness_IdleCoreChangesNothing : sticky.pending = [] := by decide

theorem witness_StepTakesOneEventAndKeepsAw : ∃ t, step (facing sticky (.rd 9)) = .next t :=
  exists_of_completes (by decide)

theorem witness_HostWriteActsByRegisterNumber :
    ∀ r ∈ [0, 7, 8, 9, 10], (facing sticky (.wr r 0x10)).pending = .wr r 0x10 :: [] := by decide

theorem witness_HostReadReturnsTheRegister :
    ∀ r ∈ [0, 1, 2, 3, 4, 5, 6, 7, 8, 9, 10], (facing sticky (.rd r)).pending = .rd r :: [] ∧ r ≤ 10 := by decide

theorem witness_HostWordTransactions :
    ∀ a ∈ [0, 63], (facing sticky (.wrw a ones)).pending = .wrw a ones :: [] ∧
      (facing sticky (.rdw a)).pending = .rdw a :: [] ∧ a < 2 ^ sticky.aw.val := by decide

/-- Both sides of the equivalence are taken: a refused step, and one that is not. -/
theorem witness_RefusedExactlyWhenIllFormed :
    refusalOf (step (facing sticky (.rd 11))) = some (.noSuchRegister 11) ∧
    refusalOf (step (facing sticky (.rdw 64))) = some (.noSuchWord 64) ∧
    refusalOf (step (facing sticky (.reset [(64, 1)]))) = some (.noSuchWord 64) ∧
    refusalOf (step (facing sticky (.rdw 63))) = none := by decide

theorem witness_ResetClearsRegistersAndLeavesAnyMemory :
    (facing sticky (.reset [(0, 5), (63, 6)])).pending = .reset [(0, 5), (63, 6)] :: [] ∧
    ∀ c ∈ [(0, (5 : Word)), (63, 6)], c.1 < 2 ^ sticky.aw.val := by decide

theorem witness_EveryStepKeepsTheInvariant :
    StateInv (facing sticky (.issue 3)) ∧ ∃ t, step (facing sticky (.issue 3)) = .next t :=
  ⟨by unfold StateInv; decide, exists_of_completes (by decide)⟩

theorem witness_RangeLengthErrorComesFirst :
    64 < (getStart 0 65).lenN ∧ ((getStart 63 64).lenN ≤ 64 ∧ ∃ t, exec .get (getStart 63 64) = .next t) ∧
    ∃ t, exec .create (getStart 0 65) = .next t :=
  ⟨by decide, ⟨by decide, exists_of_completes (by decide)⟩, exists_of_completes (by decide)⟩

theorem witness_ErrorsChangeStatusOnly :
    ((facing sticky (.issue 9)).pending = .issue 9 :: [] ∧ ∀ i, decode 9 ≠ .ok i) ∧
    ((facing (getStart 0 65) (.wr 10 3)).pending = .wr 10 3 :: [] ∧ ((3 : Word).setWidth 32 : CommandWord) = 3 ∧
      decode 3 = .ok .get ∧ 64 < (facing (getStart 0 65) (.wr 10 3)).lenN) :=
  ⟨⟨rfl, fun i => by cases i <;> decide⟩, by decide⟩

theorem witness_CommandsWriteErrAndSticky :
    (∃ t, exec .get (getStart 0 65) = .next t) ∧ ∃ t, exec .copy sticky = .next t :=
  ⟨exists_of_completes (by decide), exists_of_completes (by decide)⟩

theorem witness_NoCommandReadsStatus :
    (∃ t, exec .overwrite sticky = .next t) ∧ ∃ f, exec .get (getStart 128 0) = .fault f :=
  ⟨exists_of_completes (by decide), _, rfl⟩

theorem witness_OnlyStatusWriteOrResetClearsSticky :
    sticky.esticky = true ∧
    (∃ t, step (facing sticky (.wr 9 0x10)) = .next t ∧ t.esticky = false) ∧
    ∃ t, step (facing sticky (.reset [])) = .next t ∧ t.esticky = false :=
  ⟨by decide, ⟨_, rfl, by decide⟩, ⟨_, rfl, by decide⟩⟩

theorem witness_NoCommandWritesOperandRegisters : ∃ t, exec .insert (vectorStart 70 100 64) = .next t :=
  exists_of_completes (by decide +kernel)

theorem witness_OnlyHostChangesOperandRegisters :
    ∃ t, step (facing sticky (.wr 7 1)) = .next t ∧ t.regs ≠ sticky.regs := ⟨_, rfl, by decide⟩

/-- GET ignores `DB`, `DW`, `AUX` and `VAL`: it completes on one file, and faults on another. -/
theorem witness_UnnamedRegistersAreIgnored :
    sameOperands .get (getStart 4 60).regs (regs 0 2 5 6 4 7 60 8) ∧ (∃ t, exec .get (getStart 4 60) = .next t) ∧
    sameOperands .get (getStart 128 0).regs (regs 0 2 5 6 128 7 0 8) ∧ ∃ f, exec .get (getStart 128 0) = .fault f :=
  ⟨by unfold sameOperands; decide, exists_of_completes (by decide), by unfold sameOperands; decide, _, rfl⟩

theorem witness_FaultsComeOnlyFromUndefinedCommands : ∃ f, step (facing (getStart 128 0) (.issue 3)) = .fault f :=
  ⟨_, rfl⟩

theorem witness_OnlyWritersChangeMemory :
    (∃ t, step (facing (getStart 4 60) (.issue 3)) = .next t) ∧
    (facing (getStart 4 60) (.issue 3)).pending = .issue 3 :: [] ∧ (∀ a v, Event.issue 3 ≠ .wrw a v) ∧
    (∀ cs, Event.issue 3 ≠ .reset cs) ∧ ∀ i, commandOf (.issue 3) = some i → i = .get ∨ i = .compare :=
  ⟨exists_of_completes (by decide), rfl, by simp, by simp, fun i h => .inl (Option.some.inj h).symm⟩

/-- Both ends of the range, and the two cases of the split: inside one word, and straddling. -/
theorem witness_RangeSplitsAtTheWordBoundary :
    (0 ≤ 64 ∧ 0 % 64 + 64 ≤ 64 ∧ lowPart 0 64 = 64) ∧ 64 < 63 % 64 + 2 ∧ 64 < 1 % 64 + 64 ∧ lowPart 127 0 = 0 := by
  decide

theorem witness_CreateZeroesItsArray :
    createDefined (createStart 0) ∧ createDefined (createStart 65) ∧
    createDefined (machine (regs 0 0 0x3E 0 0 0 65) []) := by decide

theorem witness_CreatedArrayHoldsEveryOffset : ∃ t, exec .create (createStart 65) = .next t :=
  exists_of_completes (by decide)

theorem witness_GetReturnsTheRange :
    ((getStart 127 0).lenN ≤ 64 ∧ getDefined (getStart 127 0)) ∧
    ((getStart 64 64).lenN ≤ 64 ∧ getDefined (getStart 64 64)) ∧
    ∃ s s' t t', s.mem ≠ s'.mem ∧ State.lenN s ≤ 64 ∧ s'.regs = s.regs ∧
      (∀ k, k < s.lenN → bitAt s'.mem s.sbN (s.offN + k) = bitAt s.mem s.sbN (s.offN + k)) ∧
      exec .get s = .next t ∧ exec .get s' = .next t' :=
  ⟨by decide, by decide, getStart 0 4, machine (regs 0 2 0 0 0 0 4) [(0, 0xF)], _, _, by decide, by decide, rfl,
    by decide, rfl, rfl⟩

theorem witness_OverwriteReplacesOnlyTheRange :
    ((vectorStart 63 0 2).lenN ≤ 64 ∧ overwriteDefined (vectorStart 63 0 2)) ∧
    (vectorStart 127 0 0).lenN ≤ 64 ∧ overwriteDefined (vectorStart 127 0 0) := by decide

theorem witness_OverwriteThenGetRoundTrips :
    (vectorStart 32 0 64).lenN ≤ 64 ∧ overwriteDefined (vectorStart 32 0 64) ∧
    ∀ t, exec .overwrite (vectorStart 32 0 64) = .next t →
      ∃ u : State, u.mem = t.mem ∧ u.aw = t.aw ∧ u.regs.sb = 16 ∧ u.regs.sw = 2 ∧ u.regs.off = 32 ∧ u.regs.len = 64 :=
  ⟨by decide, by decide, fun t _ => ⟨t.setRegs (regs 16 2 0 0 32 0 64), rfl, rfl, rfl, rfl, rfl, rfl⟩⟩

theorem witness_OverwriteAndCopyAreIdempotent :
    (∃ t u, exec .overwrite sticky = .next t ∧ exec .overwrite t = .next u) ∧
    ∃ t u, disjointWords sticky.sbN sticky.swN sticky.dbN sticky.dwN ∧ exec .copy sticky = .next t ∧
      exec .copy t = .next u :=
  ⟨⟨_, _, rfl, rfl⟩, _, _, by decide, rfl, rfl⟩

theorem witness_ChunkStaysInOneWordOnEachSide :
    ∃ m m' : Memory, m ≠ m' ∧ m'.readWord 0 = m.readWord 0 ∧ m'.readWord 8 = m.readWord 8 :=
  ⟨[], contentsMem [(1, 1)], by decide, by decide, by decide⟩

theorem witness_CopyFollowsThePseudocode :
    (vectorStart 63 0 0).lenN = 0 ∧ copyDefined (vectorStart 60 28 68) := by decide

theorem witness_ZeroLengthCopyChangesNothing : (machine (regs 99 99 99 99 99 99 0) []).lenN = 0 := by decide

/-- The two edges of the ranges: ending with the array, and COPY with nothing to do. -/
theorem witness_CopyOnlyOrsIntoItsWindow :
    copyDefined (vectorStart 60 60 68) ∧ (vectorStart 63 0 0).lenN = 0 := by decide

theorem witness_CopyMovesRangeAndWindow :
    1 ≤ (vectorStart 3 60 4).lenN ∧ copyDefined (vectorStart 3 60 4) ∧
    disjointWords (vectorStart 3 60 4).sbN (vectorStart 3 60 4).swN (vectorStart 3 60 4).dbN (vectorStart 3 60 4).dwN ∧
    1 ≤ sticky.lenN ∧ copyDefined sticky ∧
    ∀ k, k < movedBits sticky.offN sticky.auxN sticky.lenN → bitAt sticky.mem sticky.dbN (sticky.auxN + k) = false := by
  decide

theorem witness_OverCopyWindowStaysInTheArrays :
    1 ≤ (vectorStart 60 0 4).lenN ∧ copyDefined (vectorStart 60 0 4) ∧ (60 + 4) % 64 = 0 ∧
    ∃ s s' : State, 1 ≤ s.lenN ∧ copyDefined s ∧ ¬disjointWords s.sbN s.swN s.dbN s.dwN ∧ s'.mem ≠ s.mem ∧
      s'.regs = s.regs ∧ s'.aw = s.aw ∧
      (∀ i, i < s.swN → s'.mem.readWord (s.sbN + i) = s.mem.readWord (s.sbN + i)) ∧
      ∀ i, i < s.dwN → s'.mem.readWord (s.dbN + i) = s.mem.readWord (s.dbN + i) :=
  ⟨by decide, by decide, by decide, machine (regs 0 2 1 2 0 60 8) [(0, 0xAB)],
    machine (regs 0 2 1 2 0 60 8) [(0, 0xAB), (3, 9)], by decide, by decide, by decide, by decide, rfl, rfl, by decide,
    by decide⟩

theorem witness_InsertSplicesZeroBits :
    insertDefined (vectorStart 70 100 64) ∧ insertDefined (vectorStart 100 100 0) ∧
    insertDefined (machine (regs 0 0 16 0 0 0 70) []) := by decide

theorem witness_RemoveCutsTheRange :
    removeDefined (vectorStart 30 100 70) ∧ removeDefined (vectorStart 0 128 128) := by decide

theorem witness_RemoveUndoesInsert :
    insertDefined (vectorStart 70 100 64) ∧ ∀ t, exec .insert (vectorStart 70 100 64) = .next t → t.r0.toNat = 3 →
      t.aw = 6 → ∃ u : State, u.mem = t.mem ∧ u.aw = t.aw ∧ u.regs.sb = 16 ∧ u.regs.sw = t.r0 ∧ u.auxN = 100 + 64 ∧
        u.regs.off = 70 ∧ u.regs.len = 64 ∧ inMemory u u.dbN (ceilWords 100) ∧
        disjointWords u.sbN u.swN u.dbN (ceilWords 100) := by
  refine ⟨by decide, fun t _ h ha => ⟨t.setRegs ⟨16, t.r0, 32, 0, 70, 164, 64, 0⟩, rfl, rfl, rfl, rfl, rfl, rfl, rfl,
    ?_, ?_⟩⟩
  · show 32 + 2 ≤ 2 ^ t.aw.val
    rw [ha]
    decide
  · show t.r0.toNat = 0 ∨ 2 = 0 ∨ 16 + t.r0.toNat ≤ 32 ∨ 32 + 2 ≤ 16
    omega

theorem witness_ZeroLengthSpliceCopiesTheVector :
    (vectorStart 64 100 0).lenN = 0 ∧ insertDefined (vectorStart 64 100 0) ∧ removeDefined (vectorStart 64 100 0) ∧
    64 < (vectorStart 64 100 0).auxN ∧ insertDefined (vectorStart 100 100 0) ∧
    cleanVector (vectorStart 100 100 0).mem 0 100 :=
  ⟨by decide, by decide, by decide, by decide, by decide, fun g h1 h2 => by
    have h3 : 64 * ceilWords 100 = 128 := by decide
    rw [h3] at h2
    interval_cases g <;> decide⟩

theorem witness_SplicePaddingIsExact :
    insertDefined (machine (regs 0 1 16 0 30 60 2) [(0, ones)]) ∧ 60 + 2 + 0 < 64 * ceilWords (60 + 2) ∧
    removeDefined (machine (regs 0 1 16 0 30 60 2) [(0, ones)]) ∧ 60 - 2 + 3 < 64 * ceilWords (60 - 2) ∧
    ∀ g, g < 64 → 60 ≤ g → bitAt (machine (regs 0 1 16 0 30 60 2) [(0, 7)]).mem 0 g = false := by decide

/-- A pair of arrays in each of the three orders, and arrays of no words. -/
theorem witness_CompareOrdersBigEndianNumbers :
    compareDefined (machine (regs 0 1 8 1 0 0 0) [(0, 5), (8, 6)]) ∧
    compareDefined (machine (regs 0 1 8 1 0 0 0) [(0, 6), (8, 6)]) ∧
    compareDefined (machine (regs 0 1 8 1 0 0 0) [(0, 0x8000000000000000#64)]) ∧
    compareDefined (machine (regs 0 0 8 0 0 0 0) []) := by decide

theorem witness_CompareIsConsistent :
    compareDefined (machine (regs 0 1 8 1 0 0 0) [(0, 5)]) ∧
    ∃ u : State, u.mem = (machine (regs 0 1 8 1 0 0 0) [(0, 5)]).mem ∧ u.aw = 6 ∧ u.regs.sb = 8 ∧ u.regs.sw = 1 ∧
      u.regs.db = 0 ∧ u.regs.dw = 1 :=
  ⟨by decide, machine (regs 8 1 0 1 0 0 0) [(0, 5)], rfl, rfl, rfl, rfl, rfl, rfl⟩

/-- 66 bits (V-ILV-3), the first and the last bit of the first and the last vector, and no vectors at all. -/
theorem witness_InterleaveMatchesTheClosedForm :
    interleaveDefined (machine (regs 0 3 16 0 0 3 22) [(0, 0x3FFFFF)]) ∧
    (0 < 22 ∧ 2 < 3 ∧ 0 = 0 * 3 + (3 - 1 - 2)) ∧ (21 < 22 ∧ 0 < 3 ∧ 65 = 21 * 3 + (3 - 1 - 0)) ∧
    interleaveDefined (machine (regs 0 0 16 0 0 0 3) []) := by decide

theorem witness_InterleavePaddingIsZero :
    interleaveDefined (machine (regs 0 3 16 0 0 3 22) [(0, 0x3FFFFF)]) ∧ 61 < 64 * 2 - 22 * 3 ∧
    64 ≤ 2 + (64 * 2 - 22 * 3) := by decide

/-- Two keys of one vector of two bits each, put side by side at 16 and 17. -/
theorem witness_InterleavedKeysCompareInZOrder :
    ∃ s t s' t' u : State, exec .interleave s = .next t ∧ s'.mem = t.mem ∧ s'.aw = t.aw ∧ s'.regs.len = s.regs.len ∧
      s'.regs.aux = s.regs.aux ∧ disjointWords s.dbN t.r0.toNat s'.dbN t.r0.toNat ∧ exec .interleave s' = .next t' ∧
      u.mem = t'.mem ∧ u.aw = t'.aw ∧ u.regs.sb = s.regs.db ∧ u.regs.sw = t.r0 ∧ u.regs.db = s'.regs.db ∧
      u.regs.dw = t'.r0 := by
  let s := machine (regs 0 1 16 0 0 1 2) [(0, 2), (1, 1)]
  let s' := (afterInterleave s).setRegs (regs 1 1 17 0 0 1 2)
  have h : exec .interleave s = .next (afterInterleave s) := by
    rcases execInterleave_cases s with ⟨-, e⟩ | ⟨d, -⟩
    · exact e
    · exact absurd (by decide) d
  have h' : exec .interleave s' = .next (afterInterleave s') := by
    rcases execInterleave_cases s' with ⟨-, e⟩ | ⟨d, -⟩
    · exact e
    · exact absurd (by decide) d
  exact ⟨s, _, s', _, (afterInterleave s').setRegs ⟨16, (afterInterleave s).r0, 17, (afterInterleave s').r0, 0, 0, 0, 0⟩,
    h, rfl, rfl, rfl, rfl, by decide, h', rfl, rfl, rfl, rfl, rfl, rfl⟩

/-- Cursor positions 0, 63 and 64 of the two words. -/
theorem witness_CursorPositionIsAMirroredOffset :
    ∀ p ∈ [(63, 0), (0, 63), (127, 64)], (getStart p.1 1).offN = p.2 - p.2 % 64 + (63 - p.2 % 64) ∧
      (getStart p.1 1).lenN = 1 ∧ getDefined (getStart p.1 1) := by decide

/-- The largest value that fits, and the smallest that does not. -/
theorem witness_PseudoCommandsRunTheirCommand :
    (∀ v ∈ [2 ^ 64 - 1, 0], v < 2 ^ 64) ∧ lineEvents 6 (expandCall (.create (2 ^ 64) 0)) = none := by decide

theorem witness_PrintedHexReadsBack :
    decode 0x00000005#32 = .ok .copy ∧ ∀ i, decode 0xDEADBEEF#32 ≠ .ok i :=
  ⟨by decide, fun i => by cases i <;> decide⟩

/-- Both sides of each bound. -/
theorem witness_LinesThatDoNotFitStandForNothing :
    (lineEvent 6 (.wr 10 (2 ^ 64 - 1)) ≠ none ∧ lineEvent 6 (.wr 10 (2 ^ 64)) = none ∧ lineEvent 6 (.wr 11 0) = none) ∧
    (lineEvent 6 (.rd 10) ≠ none ∧ lineEvent 6 (.rd 11) = none) ∧
    (lineEvent 6 (.wrw 63 1) ≠ none ∧ lineEvent 6 (.wrw 64 1) = none ∧ lineEvent 6 (.wrw 0 (2 ^ 64)) = none) ∧
    (lineEvent 6 (.rdw 63) ≠ none ∧ lineEvent 6 (.rdw 64) = none) ∧
    (lineEvent 6 (.issueW (2 ^ 32 - 1)) ≠ none ∧ lineEvent 6 (.issueW (2 ^ 32)) = none) ∧
    lineEvents 6 [.rd 0, .rdw 64] = none ∧ lineEvents 6 [.rd 0, .rdw 63] = some [.rd 0, .rdw 63] ∧
    readLine 6 "RDW 63" = some [.rdw 63] := by decide

end Sys2Proof.Tests
end

section
/-! The mask of the low bits, `maskBelow` (00_scope R13), and the widths the commands apply it to. -/

namespace Sys2Proof.Machine

/-! ## Widths of masks (41_range_codec R90, 42_bit_mover R111) -/

theorem lowPart_le_len (off len : Nat) : lowPart off len ≤ len := Nat.min_le_left _ _

theorem chunkLen_le_wordSize (s d : Nat) : chunkLen s d ≤ 64 :=
  (Nat.le_add_left _ _).trans (chunkLen_le s d).1

/-- Inside a word, `maskBelow n` has exactly the bits below `n`. -/
theorem getLsbD_maskBelow_of_lt (n : Nat) {k : Nat} (hk : k < 64) : (maskBelow n).getLsbD k = decide (k < n) := by
  rw [getLsbD_maskBelow, decide_eq_true hk, Bool.true_and]

/-- Settles O26: the value by `toNat_maskBelow` and the bits by `getLsbD_maskBelow`; a part of a range is at most its
length, and a chunk and a bit index stay inside one word. -/
theorem maskBelowIsAllOnesBelow : Obligations.MaskBelowIsAllOnesBelow := by
  refine ⟨fun n hn => ⟨toNat_maskBelow n hn, fun _ hk => getLsbD_maskBelow_of_lt n hk⟩,
    by decide, by decide, by decide, by decide, fun off len hlen => ⟨?lowBits, ?highBits⟩, chunkLen_le_wordSize,
    fun off => (bitIdx_lt off).le⟩
  case lowBits => exact (lowPart_le_len off len).trans hlen
  case highBits => exact (Nat.sub_le _ _).trans hlen

end Sys2Proof.Machine
end

section
/-! What a command, a served event and a step do to each part of the state. -/

namespace Sys2Proof.Machine

open Safety (StateInv shellKept)

/-! ## `STATUS` (10_state R26) -/

/-- Masking out bits 4:0 keeps the reserved bits alone. -/
theorem getLsbD_reserved (st : Word) (k : Nat) :
    (st &&& ~~~0x1F#64).getLsbD k = (decide (5 ≤ k) && st.getLsbD k) := by
  rcases Nat.lt_or_ge k 64 with hk | hk
  · rw [BitVec.getLsbD_and, Bool.and_comm]
    congr 1
    interval_cases k <;> rfl
  · simp [BitVec.getLsbD_of_ge _ _ hk]

/-- Masking `STATUS` with `ERR` gives its code. -/
theorem toNat_and_errMask (st : Word) : (st &&& errMask).toNat = (statusErr st).toNat := by
  have hword : st &&& errMask = (statusErr st).setWidth 64 := by
    apply BitVec.eq_of_getLsbD_eq
    intro k hk
    simp only [statusErr, BitVec.getLsbD_and, getLsbD_errMask, BitVec.getLsbD_setWidth, BitVec.getLsbD_extractLsb', hk,
      decide_true, Bool.true_and, Nat.zero_add, Bool.and_comm]
  rw [hword, BitVec.toNat_setWidth_of_le (by decide)]

/-- The invariant's words about `STATUS`, bit by bit: bits 63:5 are 0 and the code in `ERR` exists. -/
theorem status_inv_iff (st : Word) :
    (st &&& ~~~0x1F#64 = 0 ∧ (st &&& 0xF#64).toNat ≤ 2) ↔
      (∀ k, 5 ≤ k → st.getLsbD k = false) ∧ (statusErr st).toNat ≤ 2 := by
  rw [← toNat_and_errMask]
  refine and_congr_left' ⟨fun hzero k hk => ?_, fun hhigh => BitVec.eq_of_getLsbD_eq fun k _ => ?_⟩
  · have hbit := getLsbD_reserved st k
    rw [hzero, decide_eq_true hk, Bool.true_and] at hbit
    exact hbit.symm.trans BitVec.getLsbD_zero
  · rw [getLsbD_reserved]
    rcases Nat.lt_or_ge k 5 with hlt | hge
    · simp [Nat.not_le.2 hlt]
    · simp [hhigh k hge]

/-- A write of `ERR` and `ESTICKY` leaves the reserved bits. -/
theorem getLsbD_setErr_high (st : Word) (c : BitVec 4) {k : Nat} (hk : 5 ≤ k) :
    (setErr st c).getLsbD k = st.getLsbD k := by
  rw [getLsbD_setErr, if_neg (by omega)]

theorem getLsbD_setSticky_high (st : Word) {k : Nat} (hk : 5 ≤ k) : (setSticky st).getLsbD k = st.getLsbD k := by
  rw [getLsbD_setSticky, decide_eq_false (by omega), Bool.or_false]

theorem getLsbD_clearSticky_high (st : Word) {k : Nat} (hk : 5 ≤ k) : (clearSticky st).getLsbD k = st.getLsbD k := by
  rw [getLsbD_clearSticky, decide_eq_false (by omega), Bool.not_false, Bool.and_true]

theorem getLsbD_hostStatusWrite_high (st v : Word) {k : Nat} (hk : 5 ≤ k) :
    (hostStatusWrite st v).getLsbD k = st.getLsbD k := by
  unfold hostStatusWrite
  split
  · exact getLsbD_clearSticky_high st hk
  · rfl

@[simp] theorem statusErr_hostStatusWrite (st v : Word) : statusErr (hostStatusWrite st v) = statusErr st := by
  unfold hostStatusWrite
  split
  · exact statusErr_clearSticky st
  · rfl

/-- Taking an exception sets `ERR` and `ESTICKY` and leaves the reserved bits (60_exceptions R193). -/
theorem State.raise_err (s : State) (c : Condition) : (s.raise c).err = conditionCode c := by
  rw [State.err, State.raise_status, statusErr_setSticky, statusErr_setErr]

theorem State.raise_esticky (s : State) (c : Condition) : (s.raise c).esticky = true := statusSticky_setSticky _

theorem State.getLsbD_raise_status_high (s : State) (c : Condition) {k : Nat} (hk : 5 ≤ k) :
    (s.raise c).status.getLsbD k = s.status.getLsbD k := by
  rw [State.raise_status, getLsbD_setSticky_high _ hk, getLsbD_setErr_high _ _ hk]

/-- A host write with bit 4 clear leaves `STATUS`. -/
theorem hostStatusWrite_of_clear {st v : Word} (h : v.getLsbD 4 = false) : hostStatusWrite st v = st := by
  unfold hostStatusWrite
  rw [h]
  rfl

/-! ## The state invariant (00_scope R9, 10_state R26, R31) -/

/-- The invariant reads memory, `AW` and, of `STATUS`, the reserved bits and the code: a state that differs elsewhere
and keeps what these need to be meets it too. -/
theorem stateInv_of_parts {s t : State} (hs : StateInv s) (haw : t.aw = s.aw)
    (hwf : s.mem.wf = true → t.mem.wf = true)
    (hwithin : s.mem.within (2 ^ s.aw.val) = true → t.mem.within (2 ^ s.aw.val) = true)
    (hhigh : ∀ k, 5 ≤ k → t.status.getLsbD k = s.status.getLsbD k)
    (herr : (statusErr s.status).toNat ≤ 2 → (statusErr t.status).toNat ≤ 2) : StateInv t := by
  obtain ⟨swf, swithin, saw, sstatus⟩ := hs
  obtain ⟨shigh, serr⟩ := (status_inv_iff _).1 sstatus
  unfold StateInv
  rw [haw]
  exact ⟨hwf swf, hwithin swithin, saw,
    (status_inv_iff _).2 ⟨fun k hk => (hhigh k hk).trans (shigh k hk), herr serr⟩⟩

theorem stateInv_raise {s : State} (hs : StateInv s) (c : Condition) : StateInv (s.raise c) := by
  refine stateInv_of_parts hs rfl id id (fun _ hk => s.getLsbD_raise_status_high c hk) fun _ => ?_
  rw [show statusErr (s.raise c).status = conditionCode c from s.raise_err c]
  cases c <;> decide

theorem stateInv_hostWriteStatus {s : State} (hs : StateInv s) (v : Word) : StateInv (s.hostWriteStatus v) :=
  stateInv_of_parts hs rfl id id (fun _ hk => getLsbD_hostStatusWrite_high s.status v hk) fun h => by
    rwa [State.hostWriteStatus_status, statusErr_hostStatusWrite]

theorem stateInv_writeWord {s : State} (hs : StateInv s) {a : Nat} (v : Word) (ha : a < s.memWords) :
    StateInv (s.setMem (s.mem.writeWord a v)) :=
  stateInv_of_parts hs rfl (Memory.wf_writeWord a v) (Memory.within_writeWord v ha) (fun _ _ => rfl) id

theorem stateInv_afterReset {s : State} (hs : StateInv s) {contents : List (Nat × Word)}
    (hc : ∀ c ∈ contents, c.1 < s.memWords) : StateInv (s.afterReset contents) := by
  obtain ⟨-, -, haw, -⟩ := hs
  have hstatus : (0 : Word) &&& ~~~0x1F#64 = 0 ∧ ((0 : Word) &&& 0xF#64).toNat ≤ 2 := by decide
  exact ⟨wf_contentsMem contents, within_contentsMem hc, haw, hstatus⟩

/-- A command keeps the invariant: it writes memory inside `WMEM` alone, and a code of the table. -/
theorem stateInv_exec {i : Instr} {s t : State} (hs : StateInv s) (h : exec i s = .next t) : StateInv t := by
  cases exec_answer h with
  | raised _ _ eq => rw [eq]; exact stateInv_raise hs _
  | completed m v n _ _ fits frame eq =>
    subst eq
    refine stateInv_of_parts hs rfl frame.wf ?within (fun k hk => getLsbD_setErr_high _ _ hk) fun _ => ?code
    case within =>
      rcases fits with rfl | hfit
      · exact id
      · exact frame.within _ hfit
    case code => simp [okCode]

/-! ## What an event and a step keep -/

/-- What a step that answers a state did: nothing, with no event pending, or it served the first one. -/
theorem step_next_cases {s t : State} (h : step s = .next t) :
    (s.pending = [] ∧ t = s) ∨
    ∃ e rest, s.pending = e :: rest ∧ Served e ((s.setPending rest).setReply none) t := by
  cases hp : s.pending with
  | nil =>
    unfold step serveNext at h
    rw [hp] at h
    cases h
    exact .inl ⟨rfl, rfl⟩
  | cons e rest => exact .inr ⟨e, rest, rfl, served ((step_cons hp).symm.trans h)⟩

/-- A command keeps the operand registers, `AW`, the events and the answer (10_state R22). -/
theorem exec_shellKept {i : Instr} {s t : State} (h : exec i s = .next t) : shellKept s t := by
  cases exec_answer h with
  | raised _ _ eq => rw [eq]; exact ⟨rfl, rfl, rfl, rfl⟩
  | completed _ _ _ _ _ _ _ eq => rw [eq]; exact ⟨rfl, rfl, rfl, rfl⟩

/-- What a command does to `STATUS`, and that an error does nothing else to `R0` and `WMEM` (10_state R27). -/
theorem exec_status {i : Instr} {s t : State} (h : exec i s = .next t) :
    ((t.err = 0 ∧ t.esticky = s.esticky) ∨ (t.err = 1 ∧ t.esticky = true ∧ t.r0 = s.r0 ∧ t.mem = s.mem)) ∧
    ∀ k, 5 ≤ k → t.status.getLsbD k = s.status.getLsbD k := by
  cases exec_answer h with
  | raised _ _ eq =>
    subst eq
    exact ⟨.inr ⟨s.raise_err _, s.raise_esticky _, rfl, rfl⟩, fun k hk => s.getLsbD_raise_status_high _ hk⟩
  | completed _ _ _ _ _ _ _ eq =>
    subst eq
    exact ⟨.inl ⟨statusErr_setErr _ _, statusSticky_setErr _ _⟩, fun k hk => getLsbD_setErr_high _ _ hk⟩

/-- A command sets `ESTICKY` or leaves it. -/
theorem exec_keeps_sticky {i : Instr} {s t : State} (h : exec i s = .next t) (hs : s.esticky = true) :
    t.esticky = true := by
  rcases (exec_status h).1 with ⟨-, hsame⟩ | ⟨-, hset, -, -⟩
  · exact hsame.trans hs
  · exact hset

/-- Serving an event keeps `AW` and the other events (10_state R34). -/
theorem Served.aw_pending {e : Event} {s t : State} (h : Served e s t) : t.aw = s.aw ∧ t.pending = s.pending := by
  cases h with
  | command i _ run => obtain ⟨-, haw, hpending, -⟩ := exec_shellKept run; exact ⟨haw, hpending⟩
  | illegal _ _ eq | operand _ _ _ _ _ _ eq | result _ _ eq | status _ _ eq | read _ _ eq | word _ _ _ _ eq
  | reset _ _ _ eq =>
    rw [eq]; exact ⟨rfl, rfl⟩

/-- Serving an event keeps the invariant. -/
theorem Served.stateInv {e : Event} {s t : State} (h : Served e s t) (hs : StateInv s) : StateInv t := by
  cases h with
  | command i _ run => exact stateInv_exec hs run
  | illegal _ _ eq => rw [eq]; exact stateInv_raise hs _
  | operand _ _ _ _ _ _ eq | result _ _ eq | read _ _ eq => rw [eq]; exact hs
  | status v _ eq => rw [eq]; exact stateInv_hostWriteStatus hs v
  | word a v _ exist eq => rw [eq]; exact stateInv_writeWord hs v exist
  | reset _ _ exist eq => rw [eq]; exact stateInv_afterReset hs exist

/-- An event that is neither WR to an operand register nor a reset keeps the operand registers (10_state R22). -/
theorem Served.regs_of_not_writesOperand {e : Event} {s t : State} (h : Served e s t)
    (he : Safety.writesOperand e = false) : t.regs = s.regs := by
  cases h with
  | command i _ run => exact (exec_shellKept run).1
  | illegal _ _ eq | status _ _ eq | read _ _ eq | word _ _ _ _ eq => rw [eq]; rfl
  | result _ _ eq => rw [eq]
  | operand r v src num _ _ _ => rw [src] at he; exact absurd num (of_decide_eq_false he)
  | reset _ src _ _ => rw [src] at he; cases he

/-- `ESTICKY` goes from 1 to 0 only by WR of bit 4 to `STATUS`, or reset (60_exceptions R194). -/
theorem Served.clears_sticky {e : Event} {s t : State} (h : Served e s t) (hs : s.esticky = true)
    (ht : t.esticky = false) :
    (∃ v : Word, e = .wr 9 v ∧ v.getLsbD 4 = true) ∨ ∃ contents, e = .reset contents := by
  have hkept : t.status ≠ s.status := fun heq => by
    unfold State.esticky at hs ht
    rw [heq, hs] at ht
    cases ht
  cases h with
  | command i _ run => exact absurd (exec_keeps_sticky run hs) (by simp [ht])
  | illegal _ _ eq => rw [eq, State.raise_esticky] at ht; cases ht
  | operand _ _ _ _ _ _ eq | result _ _ eq | read _ _ eq | word _ _ _ _ eq => subst eq; exact absurd rfl hkept
  | status v src eq =>
    refine .inl ⟨v, src, Bool.of_not_eq_false fun hv => hkept ?_⟩
    rw [eq, State.hostWriteStatus_status, hostStatusWrite_of_clear hv]
  | reset contents src _ _ => exact .inr ⟨contents, src⟩

/-! ## Refusals (93_implementation_defined U12) -/

theorem issue_not_refused (w : CommandWord) (s : State) (r : Refusal) : issue w s ≠ .refused r := by
  unfold issue
  split
  · nofun
  · exact exec_not_refused _ s r

/-- An event that names a register or a word that does not exist is refused. -/
theorem serve_refused_of_not_wf {e : Event} {s : State} (he : e.wf s.aw.val = false) :
    ∃ r, serve e s = .refused r := by
  cases e with
  | wr r v => exact ⟨_, hostWrite_none (by simpa [Event.wf] using he)⟩
  | rd r =>
    have hnone : s.readReg? r = none := by
      rw [← Option.not_isSome_iff_eq_none, readReg?_isSome_iff]
      simpa [Event.wf] using he
    exact ⟨.noSuchRegister r, by simp only [serve, hostRead, hnone]⟩
  | wrw a v => exact ⟨_, if_neg (of_decide_eq_false he)⟩
  | rdw a => exact ⟨_, if_neg (of_decide_eq_false he)⟩
  | issue w => cases he
  | reset contents =>
    refine platformReset_refused fun hc => ?_
    have hwf : (Event.reset contents).wf s.aw.val = true := List.all_eq_true.2 fun c hm => decide_eq_true (hc c hm)
    rw [hwf] at he
    cases he

/-- Any other event is not. -/
theorem serve_not_refused_of_wf {e : Event} {s : State} (he : e.wf s.aw.val = true) (r : Refusal) :
    serve e s ≠ .refused r := by
  cases e with
  | wr n v =>
    have hn : n ≤ 10 := of_decide_eq_true he
    show hostWrite n v s ≠ _
    rcases Nat.lt_or_ge 7 n with h7 | h7
    · interval_cases n
      · nofun
      · nofun
      · exact issue_not_refused _ s r
    · obtain ⟨regs, -, hnext⟩ := hostWrite_operand (v := v) (s := s) h7
      rw [hnext]
      nofun
  | rd n =>
    obtain ⟨v, hv⟩ := Option.isSome_iff_exists.1 ((readReg?_isSome_iff s n).2 (of_decide_eq_true he))
    simp only [serve, hostRead, hv]
    nofun
  | wrw a v => rw [show serve (.wrw a v) s = _ from if_pos (of_decide_eq_true he)]; nofun
  | rdw a => rw [show serve (.rdw a) s = _ from if_pos (of_decide_eq_true he)]; nofun
  | issue w => exact issue_not_refused w s r
  | reset contents =>
    rw [show serve (.reset contents) s = _ from
      platformReset_next fun c hm => of_decide_eq_true (List.all_eq_true.1 he c hm)]
    nofun

/-! ## Reset (10_state R36) -/

/-- With the registers at their reset values every register of the host port reads 0. -/
theorem readReg?_of_cleared {s : State} (hregs : s.regs = OperandRegs.zero) (hr0 : s.r0 = 0) (hstatus : s.status = 0)
    {r : Nat} (hr : r ≤ 10) : s.readReg? r = some 0 := by
  unfold State.readReg?
  rw [hregs, hr0, hstatus]
  interval_cases r <;> rfl

/-- The contents that list the first `n` words of an assignment in order. -/
def listedWords (f : Nat → Word) (n : Nat) : List (Nat × Word) := (List.range n).map fun a => (a, f a)

theorem listedWords_lt {f : Nat → Word} {n : Nat} : ∀ c ∈ listedWords f n, c.1 < n := by
  simp [listedWords]

theorem contentsMem_listedWords_succ (f : Nat → Word) (n : Nat) :
    contentsMem (listedWords f (n + 1)) = (contentsMem (listedWords f n)).writeWord n (f n) := by
  simp [contentsMem, listedWords, List.range_succ]

theorem readWord_contentsMem_listedWords (f : Nat → Word) {n a : Nat} (ha : a < n) :
    (contentsMem (listedWords f n)).readWord a = f a := by
  induction n with
  | zero => omega
  | succ n ih =>
    rw [contentsMem_listedWords_succ, Memory.readWord_writeWord]
    split
    · rename_i h; rw [h]
    · exact ih (by omega)

/-- A step that serves a reset event with contents for words that exist. -/
theorem step_reset {s : State} {contents : List (Nat × Word)} {rest : List Event}
    (hp : s.pending = .reset contents :: rest) (hc : ∀ c ∈ contents, c.1 < 2 ^ s.aw.val) :
    step s = .next (((s.setPending rest).setReply none).afterReset contents) :=
  (step_cons hp).trans (platformReset_next hc)

/-! ## Statements -/

/-- Settles O14: an idle step changes nothing, and every served event keeps the invariant. -/
theorem everyStepKeepsTheInvariant : Obligations.EveryStepKeepsTheInvariant := by
  intro s t hs h
  rcases step_next_cases h with ⟨-, rfl⟩ | ⟨e, rest, -, hserved⟩
  · exact hs
  · exact hserved.stateInv hs

/-- Settles O7: the event is taken before it is served, and serving keeps `AW` and what is still pending. -/
theorem stepTakesOneEventAndKeepsAw : Obligations.StepTakesOneEventAndKeepsAw := by
  intro s t h
  rcases step_next_cases h with ⟨hp, rfl⟩ | ⟨e, rest, hp, hserved⟩
  · rw [hp]; exact ⟨rfl, rfl⟩
  · rw [hp]; exact hserved.aw_pending

/-- Settles O11: with no event the step answers, and serving is refused exactly for an ill-formed event. -/
theorem refusedExactlyWhenIllFormed : Obligations.RefusedExactlyWhenIllFormed := by
  intro s
  constructor
  · rintro ⟨r, h⟩
    cases hp : s.pending with
    | nil => simp [step, serveNext, hp] at h
    | cons e rest =>
      refine ⟨e, rest, rfl, Bool.of_not_eq_true fun he => ?_⟩
      exact serve_not_refused_of_wf (s := (s.setPending rest).setReply none) he r ((step_cons hp).symm.trans h)
  · rintro ⟨e, rest, hp, he⟩
    rw [step_cons hp]
    exact serve_refused_of_not_wf he

/-- Settles O12: the registers are cleared, and the reset event that lists every word of an assignment leaves it. -/
theorem resetClearsRegistersAndLeavesAnyMemory : Obligations.ResetClearsRegistersAndLeavesAnyMemory := by
  refine ⟨fun s contents rest hp hc => ?_, fun s rest f => ?_⟩
  · exact ⟨_, step_reset hp hc, fun r hr => readReg?_of_cleared rfl rfl rfl (by omega), rfl, rfl, rfl⟩
  · exact ⟨listedWords f (2 ^ s.aw.val), _, step_reset rfl listedWords_lt,
      fun a ha => readWord_contentsMem_listedWords f ha⟩

/-- Settles O17, by what a command does to `STATUS`. -/
theorem commandsWriteErrAndSticky : Obligations.CommandsWriteErrAndSticky := fun _ _ _ h => exec_status h

/-- Settles O19: of the served events only WR of bit 4 to `STATUS` and reset clear `ESTICKY`. -/
theorem onlyStatusWriteOrResetClearsSticky : Obligations.OnlyStatusWriteOrResetClearsSticky := by
  intro s t h hs ht
  rcases step_next_cases h with ⟨-, rfl⟩ | ⟨e, rest, hp, hserved⟩
  · rw [hs] at ht; cases ht
  · exact ⟨e, rest, hp, hserved.clears_sticky hs ht⟩

/-- Settles O20: a completed command writes memory, `R0` and `STATUS`, a failed one `STATUS` alone. -/
theorem noCommandWritesOperandRegisters : Obligations.NoCommandWritesOperandRegisters := fun _ _ _ h =>
  exec_shellKept h

/-- Settles O21: every other event keeps the operand registers. -/
theorem onlyHostChangesOperandRegisters : Obligations.OnlyHostChangesOperandRegisters := by
  intro s t h hne
  rcases step_next_cases h with ⟨-, rfl⟩ | ⟨e, rest, hp, hserved⟩
  · exact absurd rfl hne
  · exact ⟨e, rest, hp, Bool.of_not_eq_false fun he => hne (hserved.regs_of_not_writesOperand he)⟩

/-- Settles O13: memory lists nothing, `AW` is 57, and the registers are 0. -/
theorem resetStateMeetsTheInvariant : Obligations.ResetStateMeetsTheInvariant :=
  ⟨⟨State.reset_mem_wf, rfl, by decide, by decide, by decide⟩, rfl, rfl,
    fun _ hr => readReg?_of_cleared rfl rfl rfl hr⟩

end Sys2Proof.Machine
end

section
/-! The plan of a command, its preconditions and the state it completes in, apart from how it is run: two states with
the same plan are answered alike. -/

namespace Sys2Proof.Machine

/-! ## The plan of a command (60_exceptions R186, R188) -/

/-- `LEN > 64` in a command that checks it. -/
def overlong : Instr → State → Bool
  | .get, s | .overwrite, s => 64 < s.lenN
  | _, _ => false

/-- The unchecked preconditions of a command, each with its fault. -/
def preconditions : Instr → State → List (Fault × Bool)
  | .create, s => [(.newArrayOutsideMemory, arrayFits s s.dbN (wordsFor s.lenN))]
  | .compare, s =>
    [(.shapeMismatch, s.swN == s.dwN), (.sourceOutsideMemory, arrayFits s s.sbN s.swN),
     (.destinationOutsideMemory, arrayFits s s.dbN s.dwN)]
  | .get, s => [(.sourceOutsideMemory, arrayFits s s.sbN s.swN), (.rangeOutsideArray, rangeFits s.offN s.lenN s.swN)]
  | .overwrite, s =>
    [(.destinationOutsideMemory, arrayFits s s.dbN s.dwN), (.rangeOutsideArray, rangeFits s.offN s.lenN s.dwN)]
  | .copy, s =>
    [(.sourceOutsideMemory, s.lenN == 0 || arrayFits s s.sbN s.swN),
     (.destinationOutsideMemory, s.lenN == 0 || arrayFits s s.dbN s.dwN),
     (.copyRangeOutsideArray, s.lenN == 0 || s.offN + s.lenN ≤ 64 * s.swN),
     (.copyRangeOutsideArray, s.lenN == 0 || s.auxN + s.lenN ≤ 64 * s.dwN)]
  | .insert, s =>
    (.declaredExtentMismatch, s.swN == wordsFor s.auxN) :: (.spliceOutsideVector, s.offN ≤ s.auxN) ::
      spliceChecks s (wordsFor (s.auxN + s.lenN))
  | .remove, s =>
    (.declaredExtentMismatch, s.swN == wordsFor s.auxN) :: (.spliceOutsideVector, s.offN + s.lenN ≤ s.auxN) ::
      spliceChecks s (wordsFor (s.auxN - s.lenN))
  | .interleave, s =>
    [(.declaredExtentMismatch, s.auxN * wordsFor s.lenN ≤ s.swN), (.sourceOutsideMemory, arrayFits s s.sbN s.swN),
     (.newArrayOutsideMemory, arrayFits s s.dbN (wordsFor (s.lenN * s.auxN))),
     (.newArrayOverlapsSource, shareNoWord s.sbN s.swN s.dbN (wordsFor (s.lenN * s.auxN)))]

/-- The state a command completes in. -/
def afterCommand : Instr → State → State
  | .create => afterCreate
  | .compare => afterCompare
  | .get => afterGet
  | .overwrite => afterOverwrite
  | .copy => afterCopy
  | .insert => afterInsert
  | .remove => afterRemove
  | .interleave => afterInterleave

/-- A command runs its plan. -/
theorem exec_eq_plan (i : Instr) (s : State) :
    exec i s =
      if overlong i s then .next (s.raise .invalidRangeLength)
      else requireAll (preconditions i s) (.next (afterCommand i s)) := by
  cases i with
  | get => simp only [overlong, decide_eq_true_eq]; rfl
  | overwrite => simp only [overlong, decide_eq_true_eq]; rfl
  | create | compare | copy | insert | remove | interleave => rfl

/-- The preconditions settle alone, whatever the effect is, whether it happens and which fault there is if not. -/
theorem requireAll_uniform (l : List (Fault × Bool)) :
    (∀ r, requireAll l r = r) ∨ ∃ f, ∀ r, requireAll l r = .fault f := by
  induction l with
  | nil => exact .inl fun _ => rfl
  | cons c l ih =>
    obtain ⟨f, ok⟩ := c
    cases ok with
    | false => exact .inr ⟨f, fun _ => rfl⟩
    | true => exact ih

/-- A command raises in both of two states, or completes in both, or faults alike in both, when the plan
depends on nothing they differ in. -/
theorem exec_alike {i : Instr} {s s' : State} (hlong : overlong i s' = overlong i s)
    (hpre : preconditions i s' = preconditions i s) :
    (exec i s = .next (s.raise .invalidRangeLength) ∧ exec i s' = .next (s'.raise .invalidRangeLength)) ∨
    (exec i s = .next (afterCommand i s) ∧ exec i s' = .next (afterCommand i s')) ∨
    ∃ f, exec i s = .fault f ∧ exec i s' = .fault f := by
  rw [exec_eq_plan i s, exec_eq_plan i s', hlong, hpre]
  cases overlong i s with
  | true => exact .inl ⟨rfl, rfl⟩
  | false =>
    rcases requireAll_uniform (preconditions i s) with hall | ⟨f, hf⟩
    · exact .inr (.inl ⟨hall _, hall _⟩)
    · exact .inr (.inr ⟨f, hf _, hf _⟩)

/-! ## What the plan reads (10_state R23, R27) -/

theorem overlong_setStatus (i : Instr) (s : State) (st : Word) : overlong i (s.setStatus st) = overlong i s := by
  cases i <;> rfl

theorem preconditions_setStatus (i : Instr) (s : State) (st : Word) :
    preconditions i (s.setStatus st) = preconditions i s := by
  cases i <;> rfl

/-- A completed command leaves the old `STATUS` but for `ERR`, and nothing else depends on it. -/
theorem afterCommand_setStatus (i : Instr) (s : State) (st : Word) :
    afterCommand i (s.setStatus st) = (afterCommand i s).setStatus (setErr st okCode) := by
  cases i <;> rfl

theorem afterCommand_status (i : Instr) (s : State) : (afterCommand i s).status = setErr s.status okCode := by
  cases i <;> rfl

/-- Register files that agree on the named operands give the same plan, and completion keeps the file. -/
theorem plan_setRegs {i : Instr} {s : State} {r : OperandRegs} (h : Safety.sameOperands i s.regs r) :
    overlong i (s.setRegs r) = overlong i s ∧ preconditions i (s.setRegs r) = preconditions i s ∧
      afterCommand i (s.setRegs r) = (afterCommand i s).setRegs r := by
  obtain ⟨⟨sb, sw, db, dw, off, aux, len, val⟩, r0, status, mem, aw, pending, reply⟩ := s
  obtain ⟨sb', sw', db', dw', off', aux', len', val'⟩ := r
  cases i <;> simp only [Safety.sameOperands] at h
  case create => obtain ⟨rfl, rfl⟩ := h; exact ⟨rfl, rfl, rfl⟩
  case compare => obtain ⟨rfl, rfl, rfl, rfl⟩ := h; exact ⟨rfl, rfl, rfl⟩
  case get => obtain ⟨rfl, rfl, rfl, rfl⟩ := h; exact ⟨rfl, rfl, rfl⟩
  case overwrite => obtain ⟨rfl, rfl, rfl, rfl, rfl⟩ := h; exact ⟨rfl, rfl, rfl⟩
  case copy => obtain ⟨rfl, rfl, rfl, rfl, rfl, rfl, rfl⟩ := h; exact ⟨rfl, rfl, rfl⟩
  case insert => obtain ⟨rfl, rfl, rfl, rfl, rfl, rfl⟩ := h; exact ⟨rfl, rfl, rfl⟩
  case remove => obtain ⟨rfl, rfl, rfl, rfl, rfl, rfl⟩ := h; exact ⟨rfl, rfl, rfl⟩
  case interleave => obtain ⟨rfl, rfl, rfl, rfl, rfl⟩ := h; exact ⟨rfl, rfl, rfl⟩

/-! ## Statements -/

/-- Settles O18: neither the plan of a command nor what it does apart from `STATUS` reads `STATUS`; `ERR` is 1 after
the error and 0 after completion, whatever it was. -/
theorem noCommandReadsStatus : Obligations.NoCommandReadsStatus := by
  intro i s st
  rcases exec_alike (overlong_setStatus i s st) (preconditions_setStatus i s st) with
    ⟨h, h'⟩ | ⟨h, h'⟩ | ⟨f, h, h'⟩ <;> rw [h]
  · refine ⟨fun t ht => ?_, nofun⟩
    cases ht
    exact ⟨_, h', rfl, (State.raise_err _ _).trans (State.raise_err s _).symm⟩
  · refine ⟨fun t ht => ?_, nofun⟩
    cases ht
    refine ⟨_, h', by rw [afterCommand_setStatus]; rfl, ?_⟩
    simp [State.err, afterCommand_status]
  · exact ⟨nofun, fun _ hf => h'.trans hf⟩

/-- Settles O22: the plan reads the named operands alone, and a command keeps the register file. -/
theorem unnamedRegistersAreIgnored : Obligations.UnnamedRegistersAreIgnored := by
  intro i s r hsame
  obtain ⟨hlong, hpre, hafter⟩ := plan_setRegs hsame
  rcases exec_alike hlong hpre with ⟨h, h'⟩ | ⟨h, h'⟩ | ⟨f, h, h'⟩ <;> rw [h]
  · exact ⟨fun t ht => by cases ht; exact h', nofun⟩
  · exact ⟨fun t ht => by cases ht; exact h'.trans (congrArg _ hafter), nofun⟩
  · exact ⟨nofun, fun _ hf => h'.trans hf⟩

end Sys2Proof.Machine
end

section
/-! What a step and a repeated command leave of memory, and its two numberings of bits (20_memory). -/

namespace Sys2Proof.Machine

open Safety (bitAt cursorBit allBytesKept)

/-! ## Moves that write no memory (20_memory R49) -/

/-- GET and COMPARE write no memory. -/
theorem exec_mem_of_quiet {i : Instr} {s t : State} (h : exec i s = .next t) (hi : i = .get ∨ i = .compare) :
    t.mem = s.mem := by
  cases exec_answer h with
  | raised _ _ eq => rw [eq, State.raise_mem]
  | completed m _ _ _ quiet _ _ eq => rw [eq, State.complete_mem, State.setR0_mem, State.setMem_mem, quiet hi]

/-- Serving an event writes memory only by a command, WRW or reset. -/
theorem Served.mem_kept {e : Event} {s t : State} (h : Served e s t) (hword : ∀ a v, e ≠ .wrw a v)
    (hreset : ∀ cs, e ≠ .reset cs) (hcommand : ∀ i, Safety.commandOf e = some i → i = .get ∨ i = .compare) :
    t.mem = s.mem := by
  cases h with
  | command i issues run => exact exec_mem_of_quiet run (hcommand i issues)
  | illegal _ _ eq | operand _ _ _ _ _ _ eq | result _ _ eq | status _ _ eq | read _ _ eq => subst eq; rfl
  | word a v src => exact absurd src (hword a v)
  | reset cs src => exact absurd src (hreset cs)

/-- Settles O25: the first event is the one served, and serving it writes memory only by WRW, reset and the writing
commands. -/
theorem onlyWritersChangeMemory : Obligations.OnlyWritersChangeMemory := by
  intro s t e rest h hp hword hreset hcommand
  have hserved : Served e ((s.setPending rest).setReply none) t := served ((step_cons hp).symm.trans h)
  exact hserved.mem_kept hword hreset hcommand

/-! ## Repeated OVERWRITE and COPY (20_memory R49) -/

/-- An operation confined to an array that leaves the array's bits leaves every byte. -/
theorem Confined.allBytesKept_of_bitAt {m m' : Memory} {base n : Nat} (h : Confined m m' base n)
    (hbits : ∀ g, Safety.bitAt m' base g = Safety.bitAt m base g) : allBytesKept m m' := by
  intro b
  by_cases hb : 8 * base ≤ b ∧ b < 8 * (base + n)
  · refine Memory.readByte_of_readWord (Memory.readWord_of_bitAt fun g hg => ?_)
    obtain ⟨k, rfl⟩ : ∃ k, g = 64 * base + k := Nat.exists_eq_add_of_le (by omega)
    rw [← bitAt_absolute, ← bitAt_absolute, hbits]
  · exact h.kept b hb

/-- Overwriting a range again with the same value changes nothing: its bits are the value's already. -/
theorem overwriteRange_again (m : Memory) {base off len n : Nat} (val : Word) (hlen : len ≤ 64)
    (hrange : Safety.rangeInside off len n) :
    allBytesKept (overwriteRange m base off len val)
      (overwriteRange (overwriteRange m base off len val) base off len val) := by
  refine (confined_overwriteRange _ val hrange).allBytesKept_of_bitAt fun g => ?_
  simp only [bitAt_overwriteRange _ _ _ _ _ _ hlen]
  split <;> rfl

/-- Relaying again between arrays that share no word changes nothing: the source is as it was, and its bits are in the
destination already. -/
theorem copyBits_again (m : Memory) {sb s db d limit n n' : Nat} (hs : s < limit → limit ≤ 64 * n)
    (hd : s < limit → d + (limit - s) ≤ 64 * n') (hdisj : ∀ i j, i < n → j < n' → sb + i ≠ db + j) :
    allBytesKept (copyBits m sb s db d limit) (copyBits (copyBits m sb s db d limit) sb s db d limit) := by
  refine (confined_copyBits _ hd).allBytesKept_of_bitAt fun g => ?_
  rw [bitAt_copyBits _ hs hd hdisj g]
  by_cases hwindow : d ≤ g ∧ g < d + Safety.movedBits s d (limit - s)
  · have hlt : s < limit := by
      by_contra hge
      rw [show limit - s = 0 by omega, Safety.movedBits, if_pos rfl] at hwindow
      omega
    have hin := source_movedBits_le (d := d) (hs hlt) hlt
    have hsource : bitAt (copyBits m sb s db d limit) sb (s + (g - d)) = bitAt m sb (s + (g - d)) :=
      (confined_copyBits m hd).bitAt fun hmeet =>
        hdisj ((s + (g - d)) / 64) (sb + (s + (g - d)) / 64 - db) (by omega) (by omega) (by omega)
    rw [hsource, bitAt_copyBits m hs hd hdisj g, Bool.or_assoc, Bool.or_self]
  · rw [decide_eq_false hwindow, Bool.false_and, Bool.or_false]

/-- What OVERWRITE answers: it raised, or it overwrote a range inside its array. -/
theorem execOverwrite_next {s t : State} (h : exec .overwrite s = .next t) :
    (64 < s.lenN ∧ t = s.raise .invalidRangeLength) ∨
    (s.lenN ≤ 64 ∧ Safety.overwriteDefined s ∧ t = afterOverwrite s) := by
  rcases execOverwrite_cases s with ⟨hlong, e⟩ | ⟨hlen, hdef, e⟩ | ⟨-, -, f, e⟩ <;> cases e.symm.trans h
  · exact .inl ⟨hlong, rfl⟩
  · exact .inr ⟨hlen, hdef, rfl⟩

/-- What COPY answers: it copied, between arrays inside memory unless the range is empty. -/
theorem execCopy_next {s t : State} (h : exec .copy s = .next t) :
    (s.lenN = 0 ∨ Safety.copyDefined s) ∧ t = afterCopy s := by
  rcases execCopy_cases s with ⟨hdef, e⟩ | ⟨-, f, e⟩ <;> cases e.symm.trans h
  exact ⟨hdef, rfl⟩

theorem overwrite_again {s t u : State} (ht : exec .overwrite s = .next t) (hu : exec .overwrite t = .next u) :
    allBytesKept t.mem u.mem := by
  rcases execOverwrite_next hu with ⟨-, rfl⟩ | ⟨hlen', -, rfl⟩
  · exact fun _ => rfl
  · rcases execOverwrite_next ht with ⟨hlong, rfl⟩ | ⟨hlen, ⟨-, hrange⟩, rfl⟩
    · exact absurd hlen' (Nat.not_le.2 hlong)
    · exact overwriteRange_again s.mem s.regs.val hlen hrange

theorem copy_again {s t u : State} (hdisj : Safety.disjointWords s.sbN s.swN s.dbN s.dwN)
    (ht : exec .copy s = .next t) (hu : exec .copy t = .next u) : allBytesKept t.mem u.mem := by
  obtain ⟨hdef, rfl⟩ := execCopy_next ht
  obtain ⟨-, rfl⟩ := execCopy_next hu
  have hsource : s.offN < s.offN + s.lenN → s.offN + s.lenN ≤ 64 * s.swN := fun hlt => by
    obtain hzero | ⟨-, -, hsrc, -⟩ := hdef <;> omega
  have hdestination : s.offN < s.offN + s.lenN → s.auxN + (s.offN + s.lenN - s.offN) ≤ 64 * s.dwN := fun hlt => by
    obtain hzero | ⟨-, -, -, hdst⟩ := hdef <;> omega
  exact copyBits_again s.mem hsource hdestination (words_apart hdisj)

/-- Settles O33: each command run again finds the bits it would write in place. -/
theorem overwriteAndCopyAreIdempotent : Obligations.OverwriteAndCopyAreIdempotent :=
  ⟨fun _ _ _ => overwrite_again, fun _ _ _ => copy_again⟩

/-! ## Cursor positions and bit offsets (20_memory R42, R43) -/

/-- Mirroring a position inside its word keeps the word. -/
theorem cursorBit_eq_bitAt_mirrored (m : Memory) (base c : Nat) :
    cursorBit m base c = bitAt m base (c - c % 64 + (63 - c % 64)) := by
  have hword : (c - c % 64 + (63 - c % 64)) / 64 = c / 64 := by omega
  have hbit : (c - c % 64 + (63 - c % 64)) % 64 = 63 - c % 64 := by omega
  unfold Safety.cursorBit Safety.bitAt
  rw [hword, hbit]

/-- GET of one bit reads the word whose value is that bit (41_range_codec R92). -/
theorem toNat_getRange_one (m : Memory) (base off : Nat) :
    (getRange m base off 1).toNat = (bitAt m base off).toNat := by
  have hword : getRange m base off 1 = (BitVec.ofBool (bitAt m base off)).setWidth 64 := by
    apply BitVec.eq_of_getLsbD_eq
    intro k hk
    rw [getLsbD_getRange _ _ _ _ _ (by decide)]
    cases k <;> simp
  rw [hword, BitVec.toNat_setWidth_of_le (by decide), BitVec.toNat_ofBool]

/-- A GET that is defined completes. -/
theorem execGet_of_defined {s : State} (hlen : s.lenN ≤ 64) (hdef : Safety.getDefined s) :
    exec .get s = .next (afterGet s) := by
  rcases execGet_cases s with ⟨hlong, -⟩ | ⟨-, -, e⟩ | ⟨-, hundef, -⟩
  · exact absurd hlen (Nat.not_le.2 hlong)
  · exact e
  · exact absurd hdef hundef

/-- Settles O50: both names lead to one bit of one word, and GET of one bit reads it. -/
theorem cursorPositionIsAMirroredOffset : Obligations.CursorPositionIsAMirroredOffset := by
  refine ⟨cursorBit_eq_bitAt_mirrored, fun s c hoff hlen hdef => ?_⟩
  refine ⟨_, execGet_of_defined (by omega) hdef, ?_⟩
  have hr0 : (afterGet s).r0 = getRange s.mem s.sbN s.offN s.lenN := rfl
  rw [hr0, hlen, hoff, toNat_getRange_one, ← cursorBit_eq_bitAt_mirrored]

end Sys2Proof.Machine
end

section
/-! The eight command words and the words that are none (30_encoding R61, R66, R67). -/

namespace Sys2Proof

open Machine

/-! ## The fields of a command word (30_encoding R61) -/

theorem toNat_opcodeField (w : CommandWord) : (opcodeField w).toNat = w.toNat % 256 := by
  simp [opcodeField]

theorem toNat_zeroField (w : CommandWord) : (zeroField w).toNat = w.toNat / 256 := by
  have hfits : w.toNat / 256 < 2 ^ 24 := by have := w.isLt; omega
  rw [zeroField, BitVec.extractLsb'_toNat, Nat.shiftRight_eq_div_pow]
  exact Nat.mod_eq_of_lt hfits

/-- A well-formed word is one of 1 to 8. -/
theorem CommandWord.wf_iff_toNat (w : CommandWord) : w.wf = true ↔ 1 ≤ w.toNat ∧ w.toNat ≤ 8 := by
  have hzero : zeroField w = 0 ↔ w.toNat / 256 = 0 := by
    rw [← BitVec.toNat_inj, toNat_zeroField]
    rfl
  simp only [CommandWord.wf, Bool.and_eq_true, beq_iff_eq, decide_eq_true_eq, hzero, toNat_opcodeField]
  omega

/-! ## Legal and illegal words (30_encoding R66, R67) -/

theorem decode_encode (i : Instr) : decode (encode i) = .ok i := (decode_eq_ok_iff _ i).2 rfl

theorem exists_toNat_encode {n : Nat} (hlow : 1 ≤ n) (hhigh : n ≤ 8) : ∃ i, (encode i).toNat = n := by
  interval_cases n
  exacts [⟨.create, rfl⟩, ⟨.compare, rfl⟩, ⟨.get, rfl⟩, ⟨.overwrite, rfl⟩, ⟨.copy, rfl⟩, ⟨.insert, rfl⟩,
    ⟨.remove, rfl⟩, ⟨.interleave, rfl⟩]

/-- A word is a command's exactly when it is one of 1 to 8. -/
theorem decodes_iff_toNat (w : CommandWord) : (∃ i, decode w = .ok i) ↔ 1 ≤ w.toNat ∧ w.toNat ≤ 8 := by
  simp only [decode_eq_ok_iff]
  constructor
  · rintro ⟨i, rfl⟩
    exact toNat_encode i
  · rintro ⟨hlow, hhigh⟩
    obtain ⟨i, hi⟩ := exists_toNat_encode hlow hhigh
    exact ⟨i, BitVec.eq_of_toNat_eq hi.symm⟩

/-- The command words are the eight of the opcode map. -/
theorem decodes_iff_mem (w : CommandWord) : (∃ i, decode w = .ok i) ↔ w ∈ allInstrs.map encode := by
  have hall : ∀ i, i ∈ allInstrs := fun i => by cases i <;> decide
  simp only [decode_eq_ok_iff, List.mem_map, hall, true_and, eq_comm (a := w)]

/-- A word selects a row of the opcode map by its match value under the full mask. -/
theorem decode_eq_ok_iff_masked (w : CommandWord) (i : Instr) :
    decode w = .ok i ↔ w &&& 0xFFFFFFFF#32 = encode i := by
  rw [and_fullMask, decode_eq_ok_iff]

/-- A step that serves ISSUE of a word that is no command's. -/
theorem step_issue_illegal {s : State} {w : CommandWord} {rest : List Event} (hp : s.pending = .issue w :: rest)
    (hw : ∀ i, decode w ≠ .ok i) :
    step s = .next (((s.setPending rest).setReply none).raise .illegalCommand) :=
  (step_cons hp).trans (issue_illegal hw _)

/-- A step that serves ISSUE of a command's word. -/
theorem step_issue_encode {s : State} {i : Instr} {rest : List Event} (hp : s.pending = .issue (encode i) :: rest) :
    step s = exec i { s with
      pending := rest
      reply := none } :=
  (step_cons hp).trans (issue_legal (decode_encode i) _)

/-! ## Statements -/

/-- Settles O4: a word decodes exactly to the command whose word it is, and the legal and the well-formed words alike are
1 to 8. -/
theorem encodeAndDecodeAgree : Obligations.EncodeAndDecodeAgree := by
  refine ⟨fun i _ => ⟨decode_encode i, ?_⟩, fun w i hw => ((decode_eq_ok_iff w i).1 hw).symm, fun w => ?_⟩
  · exact (CommandWord.wf_iff_toNat _).2 (toNat_encode i)
  · rw [CommandWord.wf_iff_toNat, decodes_iff_toNat]

/-- Settles O1: every mask keeps the whole word, and the match values are the commands' words. -/
theorem decodeSelectsByMatchAndMask : Obligations.DecodeSelectsByMatchAndMask := fun w =>
  ⟨decode_eq_ok_iff_masked w .create, decode_eq_ok_iff_masked w .compare, decode_eq_ok_iff_masked w .get,
    decode_eq_ok_iff_masked w .overwrite, decode_eq_ok_iff_masked w .copy, decode_eq_ok_iff_masked w .insert,
    decode_eq_ok_iff_masked w .remove, decode_eq_ok_iff_masked w .interleave⟩

/-- Settles O2: a word that is none of 1 to 8 does not decode, so its step takes the exception. -/
theorem illegalWordsRaiseIllegalCommand : Obligations.IllegalWordsRaiseIllegalCommand := by
  refine ⟨fun w hw s rest hp => ?_, allInstrs.map encode, by decide, by decide, decodes_iff_mem⟩
  have hillegal : ∀ i, decode w ≠ .ok i := fun i hi => by
    have := (decodes_iff_toNat w).1 ⟨i, hi⟩
    omega
  exact ⟨_, step_issue_illegal hp hillegal, statusRaised_raise s .illegalCommand, rfl⟩

/-- Settles O3: six of the words are commands' own, the other two evaluate. -/
theorem writtenOutWordsDecode : Obligations.WrittenOutWordsDecode :=
  ⟨decode_encode .create, decode_encode .compare, decode_encode .get, decode_encode .copy, decode_encode .remove,
    decode_encode .interleave, by decide, by decide⟩

end Sys2Proof
end

section
/-! Lines of host activity and the runs of the events they stand for (30_encoding R69 to R71). -/

namespace Sys2Proof.Machine

/-! ## Lines that fit and lines that do not (30_encoding R70, 93_implementation_defined U12) -/

theorem lineEvent_eq_none {aw : Nat} {l : HostLine} (h : lineFits aw l = false) : lineEvent aw l = none := by
  rw [← Option.not_isSome_iff_eq_none, lineEvent_isSome_iff, h]
  exact Bool.false_ne_true

theorem lineFits_wr {aw r v : Nat} : lineFits aw (.wr r v) = true ↔ r ≤ 10 ∧ v < 2 ^ 64 := by
  simp only [lineFits, Bool.and_eq_true, decide_eq_true_eq]

theorem lineFits_wrw {aw a v : Nat} : lineFits aw (.wrw a v) = true ↔ a < 2 ^ aw ∧ v < 2 ^ 64 := by
  simp only [lineFits, Bool.and_eq_true, decide_eq_true_eq]

theorem lineEvent_wr {aw r v : Nat} (hr : r ≤ 10) (hv : v < 2 ^ 64) :
    lineEvent aw (.wr r v) = some (.wr r (BitVec.ofNat 64 v)) := if_pos (lineFits_wr.2 ⟨hr, hv⟩)

theorem lineEvent_rd {aw r : Nat} (hr : r ≤ 10) : lineEvent aw (.rd r) = some (.rd r) := if_pos (decide_eq_true hr)

theorem lineEvent_wrw {aw a v : Nat} (ha : a < 2 ^ aw) (hv : v < 2 ^ 64) :
    lineEvent aw (.wrw a v) = some (.wrw a (BitVec.ofNat 64 v)) := if_pos (lineFits_wrw.2 ⟨ha, hv⟩)

theorem lineEvent_rdw {aw a : Nat} (ha : a < 2 ^ aw) : lineEvent aw (.rdw a) = some (.rdw a) :=
  if_pos (decide_eq_true ha)

theorem lineEvent_issue (aw : Nat) (i : Instr) : lineEvent aw (.issue i) = some (.issue (encode i)) := rfl

theorem lineEvent_issueW {aw v : Nat} (hv : v < 2 ^ 32) :
    lineEvent aw (.issueW v) = some (.issue (BitVec.ofNat 32 v)) := if_pos (decide_eq_true hv)

/-! ## Lists of lines -/

theorem lineEvents_cons {aw : Nat} {l : HostLine} {ls : List HostLine} {e : Event} {es : List Event}
    (hl : lineEvent aw l = some e) (hls : lineEvents aw ls = some es) : lineEvents aw (l :: ls) = some (e :: es) := by
  rw [lineEvents, hl, hls]

theorem lineEvents_singleton {aw : Nat} {l : HostLine} {e : Event} (h : lineEvent aw l = some e) :
    lineEvents aw [l] = some [e] := lineEvents_cons h rfl

theorem lineEvents_eq_none_iff (aw : Nat) (ls : List HostLine) :
    lineEvents aw ls = none ↔ ∃ l ∈ ls, lineEvent aw l = none := by
  induction ls with
  | nil => simp [lineEvents]
  | cons l ls ih =>
    rw [List.exists_mem_cons_iff, ← ih, lineEvents]
    cases lineEvent aw l <;> cases lineEvents aw ls <;> simp

/-- The core refuses no event that a list of lines stands for. -/
theorem wf_of_lineEvents {aw : Nat} {ls : List HostLine} {es : List Event} (h : lineEvents aw ls = some es) :
    ∀ e ∈ es, e.wf aw = true := by
  intro e he
  have hmem : some e ∈ ls.map (lineEvent aw) := by
    rw [← (lineEvents_eq_some_iff aw ls es).1 h]
    exact List.mem_map_of_mem he
  obtain ⟨l, -, hl⟩ := List.mem_map.1 hmem
  exact wf_of_lineEvent hl

/-! ## Runs of a pseudo-command (30_encoding R71, 46_host_port R171) -/

/-- The lines that write registers. -/
def writeLines (ws : List (Nat × Nat)) : List HostLine := ws.map fun p => .wr p.1 p.2

/-- The operand registers after writing numbered values one after another, if every number is one of theirs. -/
def OperandRegs.writeAll? (r : OperandRegs) : List (Nat × Nat) → Option OperandRegs
  | [] => some r
  | (i, v) :: ws => (r.write? i (BitVec.ofNat 64 v)).bind fun r' => r'.writeAll? ws

/-- Lines that write operand registers and then issue a command run to that command on the written registers: no write
stops the run, and none changes anything else. -/
theorem run_writeLines_issue (ws : List (Nat × Nat)) (i : Instr) (s : State) (rest : List Event) {regs : OperandRegs}
    (hfits : ∀ v ∈ ws.map Prod.snd, v < 2 ^ 64) (hregs : s.regs.writeAll? ws = some regs) :
    ∃ es, lineEvents s.aw.val (writeLines ws ++ [.issue i]) = some es ∧
      core.run (ws.length + 1) { s with pending := es ++ rest } =
        exec i { s with
          pending := rest
          reply := none
          regs := regs } := by
  induction ws generalizing s with
  | nil =>
    cases hregs
    exact ⟨_, lineEvents_singleton (lineEvent_issue _ i), (run_one _).trans (step_issue_encode rfl)⟩
  | cons w ws ih =>
    obtain ⟨r, v⟩ := w
    obtain ⟨hv, hvs⟩ := List.forall_mem_cons.1 hfits
    obtain ⟨regs₁, hwrite, hrest⟩ := Option.bind_eq_some_iff.1 hregs
    have hr : r ≤ 7 := (OperandRegs.write?_some_iff _ _ _).1 (Option.isSome_of_eq_some hwrite)
    obtain ⟨es, hes, hrun⟩ := ih { s with
      regs := regs₁
      reply := none } hvs hrest
    refine ⟨_, lineEvents_cons (lineEvent_wr (by omega) hv) hes, ?_⟩
    refine (run_succ ?_).trans hrun
    exact step_operand (s := { s with pending := _ }) rfl hwrite

/-- `CLRERR` writes the bit of `STATUS` that clears `ESTICKY` (46_host_port R171). -/
theorem step_clrErr {s : State} {rest : List Event} (hp : s.pending = .wr 9 0x10#64 :: rest) :
    step s = .next { s with
      pending := rest
      reply := none
      status := s.status &&& ~~~0x10#64 } := step_cons hp

/-! ## Statements -/

/-- Settles O51: each expansion writes the command's registers and issues it; `CLRERR` is one step. -/
theorem pseudoCommandsRunTheirCommand : Obligations.PseudoCommandsRunTheirCommand := by
  intro s rest
  refine ⟨?create, ?compare, ?get, ?overwrite, ?copy, ?insert, ?remove, ?interleave, ?clrErr⟩
  case create => exact fun db n h => run_writeLines_issue [(2, db), (6, n)] .create s rest h rfl
  case compare =>
    exact fun a wa b wb h => run_writeLines_issue [(0, a), (1, wa), (2, b), (3, wb)] .compare s rest h rfl
  case get =>
    exact fun sb sw off n h => run_writeLines_issue [(0, sb), (1, sw), (4, off), (6, n)] .get s rest h rfl
  case overwrite =>
    exact fun db dw val off n h =>
      run_writeLines_issue [(2, db), (3, dw), (7, val), (4, off), (6, n)] .overwrite s rest h rfl
  case copy =>
    exact fun sb sw so db dw d n h =>
      run_writeLines_issue [(0, sb), (1, sw), (4, so), (2, db), (3, dw), (5, d), (6, n)] .copy s rest h rfl
  case insert =>
    exact fun sb sw l off n db h =>
      run_writeLines_issue [(0, sb), (1, sw), (5, l), (4, off), (6, n), (2, db)] .insert s rest h rfl
  case remove =>
    exact fun sb sw l off n db h =>
      run_writeLines_issue [(0, sb), (1, sw), (5, l), (4, off), (6, n), (2, db)] .remove s rest h rfl
  case interleave =>
    exact fun sb sw b k db h =>
      run_writeLines_issue [(0, sb), (1, sw), (6, b), (5, k), (2, db)] .interleave s rest h rfl
  case clrErr =>
    exact ⟨_, lineEvents_singleton (lineEvent_wr (by decide) (by decide)), (run_one _).trans (step_clrErr rfl)⟩

/-- Settles O53: what each line stands for by whether it fits, lists line by line, and text is read only as lines that
fit. -/
theorem linesThatDoNotFitStandForNothing : Obligations.LinesThatDoNotFitStandForNothing := by
  refine ⟨fun aw r v => ⟨fun h => ?wrBad, fun hr hv => ?wr⟩, fun aw r => ⟨fun h => ?rdBad, lineEvent_rd⟩,
    fun aw a v => ⟨fun h => ?wrwBad, fun ha hv => ?wrw⟩, fun aw a => ⟨fun h => ?rdwBad, lineEvent_rdw⟩, lineEvent_issue,
    fun aw v => ⟨fun h => ?issueWBad, fun hv => ?issueW⟩,
    fun aw ls => ⟨lineEvents_eq_none_iff aw ls, fun es h => ?lines⟩, fun aw text ls h l hl => ?text⟩
  case wrBad => exact lineEvent_eq_none (Bool.eq_false_iff.2 (lineFits_wr.not.2 (by omega)))
  case rdBad => exact lineEvent_eq_none (decide_eq_false (by omega))
  case wrwBad => exact lineEvent_eq_none (Bool.eq_false_iff.2 (lineFits_wrw.not.2 (by omega)))
  case rdwBad => exact lineEvent_eq_none (decide_eq_false (by omega))
  case issueWBad => exact lineEvent_eq_none (decide_eq_false (by omega))
  case wr => exact ⟨_, lineEvent_wr hr hv, Nat.mod_eq_of_lt hv⟩
  case wrw => exact ⟨_, lineEvent_wrw ha hv, Nat.mod_eq_of_lt hv⟩
  case issueW => exact ⟨_, lineEvent_issueW hv, Nat.mod_eq_of_lt hv⟩
  case lines => exact ⟨(lineEvents_eq_some_iff aw ls es).1 h, wf_of_lineEvents h⟩
  case text => exact Option.isSome_iff_ne_none.1 ((lineEvent_isSome_iff aw l).2 (lineFits_of_readLine h l hl))

end Sys2Proof.Machine
end

section
/-! Printed command words read back (30_encoding R69, R70, R73). -/

namespace Sys2Proof.Machine

/-! ## Digits (30_encoding R70) -/

/-- One more digit below the ones read so far. -/
def pushDigit (base acc : Nat) (c : Char) : Option Nat := (digitValue base c).map fun d => acc * base + d

theorem pushDigit_hexDigit (acc n : Nat) : pushDigit 16 acc (hexDigit (n % 16)) = some (acc * 16 + n % 16) := by
  rw [pushDigit, digitValue_hexDigit (Nat.mod_lt n (by decide)), Option.map_some]

/-- Digits without separators are read one after another. -/
theorem readDigits_eq_foldlM (base : Nat) {cs : List Char} (hcs : cs ≠ []) (hplain : ∀ c ∈ cs, c ≠ '_') (acc : Nat) :
    readDigits base cs acc = cs.foldlM (pushDigit base) acc := by
  induction cs generalizing acc with
  | nil => exact absurd rfl hcs
  | cons c cs ih =>
    cases cs with
    | nil => simp [readDigits, pushDigit]
    | cons d cs =>
      have hd : d ≠ '_' := hplain d (by simp)
      have hrest := ih (List.cons_ne_nil d cs) fun c hc => hplain c (List.mem_cons_of_mem _ hc)
      rw [List.foldlM_cons, pushDigit, readDigits]
      · cases digitValue base c with
        | none => rfl
        | some v => exact hrest _
      · simp
      · simpa using hd

/-- Every character printed as a digit is the digit of a value below 16. -/
theorem exists_of_mem_hexDigits {count n : Nat} {c : Char} (h : c ∈ hexDigits count n) : ∃ d < 16, c = hexDigit d := by
  induction count generalizing n with
  | zero => cases h
  | succ count ih =>
    rcases List.mem_append.1 h with hinit | hlast
    · exact ih hinit
    · exact ⟨n % 16, Nat.mod_lt n (by decide), List.mem_singleton.1 hlast⟩

/-- The printed digits of a number read as its remainder, below what was read before. -/
theorem foldlM_hexDigits (count n acc : Nat) :
    (hexDigits count n).foldlM (pushDigit 16) acc = some (acc * 16 ^ count + n % 16 ^ count) := by
  induction count generalizing n with
  | zero => simp [hexDigits, Nat.mod_one]
  | succ count ih =>
    have hsplit : n % 16 ^ (count + 1) = n % 16 + 16 * (n / 16 % 16 ^ count) := by
      rw [Nat.pow_succ', Nat.mod_mul]
    simp only [hexDigits, List.foldlM_append, ih, List.foldlM_cons, List.foldlM_nil, Option.bind_eq_bind,
      Option.bind_some, pushDigit_hexDigit, Option.pure_def, hsplit, Option.some.injEq]
    ring

theorem readDigits_hexDigits {count n : Nat} (hcount : count ≠ 0) (hn : n < 16 ^ count) :
    readDigits 16 (hexDigits count n) 0 = some n := by
  have hne : hexDigits count n ≠ [] := by
    obtain ⟨k, rfl⟩ := Nat.exists_eq_succ_of_ne_zero hcount
    simp [hexDigits]
  have hplain : ∀ c ∈ hexDigits count n, c ≠ '_' := fun c hc => by
    obtain ⟨d, hd, rfl⟩ := exists_of_mem_hexDigits hc
    exact (hexDigit_plain hd).1
  rw [readDigits_eq_foldlM 16 hne hplain, foldlM_hexDigits, Nat.zero_mul, Nat.zero_add, Nat.mod_eq_of_lt hn]

/-! ## A word in hexadecimal -/

/-- A command word as a literal of eight hexadecimal digits. -/
def hexLiteral (w : CommandWord) : List Char := "0x".toList ++ hexDigits 8 w.toNat

theorem readLiteral_hexLiteral (w : CommandWord) : readLiteral (hexLiteral w) = some w.toNat :=
  readDigits_hexDigits (by decide) w.isLt

/-- A literal holds no comment and no comma. -/
theorem hexLiteral_plain (w : CommandWord) : ∀ c ∈ hexLiteral w, c ≠ ';' ∧ (c == ',') = false := by
  have hlead : ∀ c ∈ "0x".toList, c ≠ ';' ∧ (c == ',') = false := by simp
  intro c hc
  rcases List.mem_append.1 hc with hc | hc
  · exact hlead c hc
  · obtain ⟨d, hd, rfl⟩ := exists_of_mem_hexDigits hc
    obtain ⟨-, hsemicolon, hcomma, -⟩ := hexDigit_plain hd
    exact ⟨hsemicolon, beq_false_of_ne hcomma⟩

/-- Text that begins with no blank and ends with digits has no blank at its ends. -/
theorem trimBlanks_append_hexDigits {c : Char} (cs : List Char) (count n : Nat) (hc : isBlank c = false) :
    trimBlanks (c :: (cs ++ hexDigits (count + 1) n)) = c :: (cs ++ hexDigits (count + 1) n) := by
  obtain ⟨-, -, -, hlast⟩ := hexDigit_plain (Nat.mod_lt n (by decide : 0 < 16))
  rw [hexDigits, ← List.append_assoc]
  exact trimBlanks_of_plain hc hlast

theorem trimBlanks_hexLiteral (w : CommandWord) : trimBlanks (hexLiteral w) = hexLiteral w :=
  trimBlanks_append_hexDigits ['x'] 7 w.toNat (by decide : isBlank '0' = false)

theorem operandTexts_hexLiteral (w : CommandWord) : operandTexts (hexLiteral w) = [hexLiteral w] := by
  have hne : hexLiteral w ≠ [] := List.cons_ne_nil _ _
  rw [operandTexts, trimBlanks_hexLiteral, if_neg hne, splitChars_of_plain fun c hc => (hexLiteral_plain w c hc).2,
    List.map_singleton, trimBlanks_hexLiteral]

/-! ## The lines that issue a word (30_encoding R69, R73) -/

/-- A first word without blanks ends at the first blank (log 19). -/
theorem firstWord_append {word rest : List Char} {b : Char} (hword : ∀ c ∈ word, isBlank c = false)
    (hb : isBlank b = true) : firstWord (word ++ b :: rest) = (word, rest) := by
  induction word with
  | nil => simp [firstWord, hb]
  | cons c word ih =>
    obtain ⟨hc, hword⟩ := List.forall_mem_cons.1 hword
    simp [firstWord, hc, ih hword]

/-- The line that issues a word by its value (30_encoding R73). -/
def issueWText (w : CommandWord) : List Char := "ISSUE.W".toList ++ ' ' :: hexLiteral w

theorem dropComment_issueWText (w : CommandWord) : dropComment (issueWText w) = issueWText w := by
  have hword : ∀ c ∈ "ISSUE.W".toList, c ≠ ';' := by simp
  refine dropComment_of_plain fun c hc => ?_
  rcases List.mem_append.1 hc with hc | hc
  · exact hword c hc
  · rcases List.mem_cons.1 hc with rfl | hc
    · decide
    · exact (hexLiteral_plain w c hc).1

theorem trimBlanks_issueWText (w : CommandWord) : trimBlanks (issueWText w) = issueWText w :=
  trimBlanks_append_hexDigits "SSUE.W 0x".toList 7 w.toNat (by decide : isBlank 'I' = false)

theorem firstWord_issueWText (w : CommandWord) : firstWord (issueWText w) = ("ISSUE.W".toList, hexLiteral w) :=
  firstWord_append (by simp [isBlank]) rfl

theorem parseLine_issueWText (w : CommandWord) :
    parseLine (String.ofList (issueWText w)) = some [.issueW w.toNat] := by
  have hne : issueWText w ≠ [] := List.cons_ne_nil _ _
  simp only [parseLine, String.toList_ofList, dropComment_issueWText, trimBlanks_issueWText, firstWord_issueWText, hne,
    operandTexts_hexLiteral, readLiteral_hexLiteral]
  rfl

theorem parseLine_issue (i : Instr) : parseLine ("ISSUE " ++ mnemonicOf i) = some [.issue i] := by
  cases i <;> decide

theorem readLine_of_parseLine {aw : Nat} {text : String} {l : HostLine} (h : parseLine text = some [l])
    (hfits : lineFits aw l = true) : readLine aw text = some [l] := by
  simp [readLine, h, hfits]

theorem disassemble_legal {w : CommandWord} {i : Instr} (h : decode w = .ok i) : disassemble w = mnemonicOf i := by
  rw [disassemble, h]

theorem disassemble_illegal {w : CommandWord} (h : ∀ i, decode w ≠ .ok i) :
    disassemble w = String.ofList (issueWText w) := by
  unfold disassemble
  split
  · rename_i i hi
    exact absurd hi (h i)
  · rfl

/-! ## Statement -/

/-- Settles O52: a printed mnemonic after `ISSUE` names its command, and the printed digits of an illegal word are read
back digit by digit. -/
theorem printedHexReadsBack : Obligations.PrintedHexReadsBack := by
  refine ⟨readLiteral_hexLiteral, fun aw w => ⟨fun i hi => ?legal, fun hillegal => ?illegal⟩⟩
  case legal =>
    rw [disassemble_legal hi, (decode_eq_ok_iff w i).1 hi]
    exact ⟨rfl, readLine_of_parseLine (parseLine_issue i) rfl, lineEvents_singleton (lineEvent_issue aw i)⟩
  case illegal =>
    rw [disassemble_illegal hillegal]
    refine ⟨readLine_of_parseLine (parseLine_issueWText w) (decide_eq_true w.isLt), ?_⟩
    rw [lineEvents_singleton (lineEvent_issueW w.isLt), BitVec.ofNat_toNat, BitVec.setWidth_eq]

end Sys2Proof.Machine
end

section
/-! The capacity allocator: what CREATE answers, and the array it makes (40_allocator). -/

namespace Sys2Proof.Machine

open Safety (ceilWords createDefined)

/-! ## What CREATE answers (40_allocator R80) -/

theorem execCreate_of_defined {s : State} (hdef : createDefined s) : exec .create s = .next (afterCreate s) := by
  rcases execCreate_cases s with ⟨-, e⟩ | ⟨hundef, -⟩
  · exact e
  · exact absurd hdef hundef

/-- What CREATE answers: it allocated, and its array fits in memory. -/
theorem execCreate_next {s t : State} (h : exec .create s = .next t) : createDefined s ∧ t = afterCreate s := by
  rcases execCreate_cases s with ⟨hdef, e⟩ | ⟨-, f, e⟩ <;> cases e.symm.trans h
  exact ⟨hdef, rfl⟩

/-- `R0` is the word count: the count of an array that fits in memory is no more than a word holds. -/
theorem afterCreate_r0_toNat {s : State} (hdef : createDefined s) : (afterCreate s).r0.toNat = ceilWords s.lenN := by
  rw [afterCreate, State.complete_r0, State.setR0_r0, wordsFor_eq]
  exact toNat_ofNat_words hdef

theorem readWord_afterCreate (s : State) {k : Nat} (hk : k < ceilWords s.lenN) :
    (afterCreate s).mem.readWord (s.dbN + k) = 0 := by
  rw [afterCreate, State.complete_mem, State.setR0_mem, State.setMem_mem, readWord_zeroFill, wordsFor_eq,
    if_pos ⟨Nat.le_add_right _ _, Nat.add_lt_add_left hk _⟩]

/-! ## The padding of an array (40_allocator R82) -/

/-- The words of an array hold its bits, and fewer than a word's worth of bits beyond them. -/
theorem padding_of_ceilWords (n : Nat) : n ≤ 64 * ceilWords n ∧ 64 * ceilWords n - n ≤ 63 := by
  unfold Safety.ceilWords
  omega

/-! ## Statements -/

/-- Settles O28: CREATE answers `afterCreate`, whose memory is the zero fill of the new array and nothing else. -/
theorem createZeroesItsArray : Obligations.CreateZeroesItsArray := by
  intro s hdef
  have hr0 := afterCreate_r0_toNat hdef
  have hrun := execCreate_of_defined hdef
  refine ⟨_, hrun, hr0, fun k hk => ?zeroed, (confined_afterCreate s).kept, exec_shellKept hrun,
    statusCompleted_of_setErr rfl⟩
  case zeroed => exact readWord_afterCreate s (hr0 ▸ hk)

/-- Settles O29: `R0` counts the words of `LEN`, an offset below `LEN` lies in one of them, and all of them lie in
memory. -/
theorem createdArrayHoldsEveryOffset : Obligations.CreatedArrayHoldsEveryOffset := by
  intro s t h
  obtain ⟨hdef, rfl⟩ := execCreate_next h
  obtain ⟨hholds, hpadding⟩ := padding_of_ceilWords s.lenN
  rw [afterCreate_r0_toNat hdef]
  refine ⟨fun g hg => ?_, hholds, hpadding, rfl⟩
  have hword := div_lt_ceilWords hg
  exact ⟨hword, Nat.lt_of_lt_of_le (Nat.add_lt_add_left hword _) hdef⟩

end Sys2Proof.Machine
end

section
/-! The range codec: the split of a bit range over two words, and what GET and OVERWRITE answer (41_range_codec). -/

namespace Sys2Proof.Machine

open Safety (bitAt bytesKept)

/-! ## The split of a range (41_range_codec R90) -/

theorem lowPart_eq_len_iff (off len : Nat) : lowPart off len = len ↔ off % 64 + len ≤ 64 := by
  unfold lowPart bitIdx
  omega

theorem lowPart_of_straddles {off len : Nat} (h : 64 < off % 64 + len) : lowPart off len = 64 - off % 64 :=
  Nat.min_eq_right (by unfold bitIdx; omega)

/-- A low part of a whole word is all of word `idx`. -/
theorem range_of_lowPart_eq_wordSize {off len : Nat} (hlen : len ≤ 64) (h : lowPart off len = 64) :
    off % 64 = 0 ∧ len = 64 := by
  unfold lowPart bitIdx at h
  omega

/-- The bits below `t` are in word `idx`, from `bitIdx` up. -/
theorem place_of_lt_lowPart {off len k : Nat} (hk : k < lowPart off len) :
    (off + k) / 64 = wordIdx off ∧ (off + k) % 64 = bitIdx off + k := by
  unfold lowPart bitIdx at hk
  unfold wordIdx bitIdx
  omega

/-- The bits from `t` up are the low bits of word `idx + 1`. -/
theorem place_of_lowPart_le {off len k : Nat} (hlen : len ≤ 64) (ht : lowPart off len ≤ k) (hk : k < len) :
    (off + k) / 64 = wordIdx off + 1 ∧ (off + k) % 64 = k - lowPart off len := by
  have hstraddles : 64 < off % 64 + len := by
    by_contra hfits
    have := (lowPart_eq_len_iff off len).2 (by omega)
    omega
  rw [lowPart_of_straddles hstraddles] at ht ⊢
  unfold wordIdx
  omega

/-! ## GET (41_range_codec R91, R92) -/

theorem toNat_getRange_lt (m : Memory) (base off : Nat) {len : Nat} (hlen : len ≤ 64) :
    (getRange m base off len).toNat < 2 ^ len := by
  refine Nat.lt_pow_two_of_testBit _ fun k hk => ?_
  rw [BitVec.testBit_toNat, getLsbD_getRange _ _ _ _ _ hlen, decide_eq_false (Nat.not_lt.2 hk), Bool.false_and]

/-- GET reads no bit outside its range. -/
theorem getRange_congr {m m' : Memory} {base off len : Nat} (hlen : len ≤ 64)
    (hbits : ∀ k, k < len → bitAt m' base (off + k) = bitAt m base (off + k)) :
    getRange m' base off len = getRange m base off len := by
  apply BitVec.eq_of_getLsbD_eq
  intro k _
  rw [getLsbD_getRange _ _ _ _ _ hlen, getLsbD_getRange _ _ _ _ _ hlen]
  by_cases hk : k < len
  · rw [hbits k hk]
  · rw [decide_eq_false hk, Bool.false_and, Bool.false_and]

/-- What a GET with `LEN ≤ 64` answers: it read a range inside its array. -/
theorem execGet_next {s t : State} (hlen : s.lenN ≤ 64) (h : exec .get s = .next t) :
    Safety.getDefined s ∧ t = afterGet s := by
  rcases execGet_cases s with ⟨hlong, -⟩ | ⟨-, hdef, e⟩ | ⟨-, -, f, e⟩
  · exact absurd hlen (Nat.not_le.2 hlong)
  · cases e.symm.trans h
    exact ⟨hdef, rfl⟩
  · cases e.symm.trans h

/-- States with the same operand registers and the same bits in the range read the same value. -/
theorem afterGet_r0_congr {s s' : State} (hlen : s.lenN ≤ 64) (hregs : s'.regs = s.regs)
    (hbits : ∀ k, k < s.lenN → bitAt s'.mem s.sbN (s.offN + k) = bitAt s.mem s.sbN (s.offN + k)) :
    (afterGet s').r0 = (afterGet s).r0 := by
  have hr0 : (afterGet s').r0 = getRange s'.mem s.sbN s.offN s.lenN := by
    unfold State.sbN State.offN State.lenN
    rw [← hregs]
    rfl
  exact hr0.trans (getRange_congr hlen hbits)

/-! ## OVERWRITE (41_range_codec R96, R97) -/

/-- An OVERWRITE that is defined completes. -/
theorem execOverwrite_of_defined {s : State} (hlen : s.lenN ≤ 64) (hdef : Safety.overwriteDefined s) :
    exec .overwrite s = .next (afterOverwrite s) := by
  rcases execOverwrite_cases s with ⟨hlong, -⟩ | ⟨-, -, e⟩ | ⟨-, hundef, -⟩
  · exact absurd hlen (Nat.not_le.2 hlong)
  · exact e
  · exact absurd hdef hundef

/-- A range is the same range of the array that begins at its first word. -/
theorem overwriteRange_rebase (m : Memory) (base off len : Nat) (val : Word) :
    overwriteRange m base off len val = overwriteRange m (base + off / 64) (off % 64) len val := by
  have hword : wordIdx (off % 64) = 0 := Nat.div_eq_of_lt (Nat.mod_lt _ (by decide))
  have hbit : bitIdx (off % 64) = bitIdx off := Nat.mod_mod off 64
  unfold overwriteRange overwriteLow overwriteHigh lowPart
  rw [hword, hbit]
  rfl

/-- OVERWRITE stores to word `idx`, and to word `idx + 1` when the range straddles. -/
theorem confined_overwriteRange_words (m : Memory) (base off len : Nat) (val : Word) :
    Confined m (overwriteRange m base off len val) (base + off / 64) (if off % 64 + len > 64 then 2 else 1) := by
  rw [overwriteRange_rebase]
  refine confined_overwriteRange m val ⟨?_, fun hstraddles => ?_⟩
  · split <;> omega
  · rw [if_pos (by omega)]
    omega

/-- Every bit of memory outside the range is as before, whichever array it is in. -/
theorem bitAt_overwriteRange_outside (m : Memory) {base off len g : Nat} (val : Word) (hlen : len ≤ 64)
    (hg : ¬(64 * base + off ≤ g ∧ g < 64 * base + off + len)) :
    bitAt (overwriteRange m base off len val) 0 g = bitAt m 0 g := by
  by_cases harray : 64 * base ≤ g
  · obtain ⟨k, rfl⟩ := Nat.exists_eq_add_of_le harray
    rw [← bitAt_absolute, ← bitAt_absolute, bitAt_overwriteRange _ _ _ _ _ _ hlen, if_neg (by omega)]
  · exact (confined_overwriteRange_words m base off len val).bitAt (by omega)

/-- What OVERWRITE wrote is what GET of the range reads (41_range_codec R98). -/
theorem getRange_overwriteRange (m : Memory) (base off : Nat) {len : Nat} (val : Word) (hlen : len ≤ 64) :
    getRange (overwriteRange m base off len val) base off len = val &&& maskBelow len := by
  apply BitVec.eq_of_getLsbD_eq
  intro k hk
  rw [getLsbD_getRange _ _ _ _ _ hlen, bitAt_overwriteRange _ _ _ _ _ _ hlen, BitVec.getLsbD_and,
    getLsbD_maskBelow_of_lt len hk, Nat.add_sub_cancel_left]
  by_cases hin : k < len
  · rw [if_pos (by omega), Bool.and_comm]
  · rw [decide_eq_false hin, Bool.false_and, Bool.and_false]

/-- GET after OVERWRITE, with the registers of the one naming the range of the other. -/
theorem execGet_after_overwrite {s u : State} (hlen : s.lenN ≤ 64) (hdef : Safety.overwriteDefined s)
    (hmem : u.mem = (afterOverwrite s).mem) (haw : u.aw = s.aw) (hsb : u.sbN = s.dbN) (hsw : u.swN = s.dwN)
    (hoff : u.offN = s.offN) (hul : u.lenN = s.lenN) :
    exec .get u = .next (afterGet u) ∧ (afterGet u).r0 = s.regs.val &&& maskBelow s.lenN := by
  have hget : Safety.getDefined u := by
    unfold Safety.getDefined Safety.inMemory
    rw [haw, hsb, hsw, hoff, hul]
    exact hdef
  have hr0 : (afterGet u).r0 = getRange u.mem u.sbN u.offN u.lenN := rfl
  rw [hr0, hmem, hsb, hoff, hul]
  exact ⟨execGet_of_defined (hul ▸ hlen) hget, getRange_overwriteRange _ _ _ _ hlen⟩

/-! ## Statements -/

/-- Settles O27: the split turns on whether the range reaches past word `idx`; the place of each bit is
`place_of_lt_lowPart` below `t` and `place_of_lowPart_le` from `t` up. -/
theorem rangeSplitsAtTheWordBoundary : Obligations.RangeSplitsAtTheWordBoundary := by
  intro off len hlen
  refine ⟨rfl, rfl, rfl, (lowPart_le_len off len).trans hlen, lowPart_eq_len_iff off len, fun hstraddles => ?straddling,
    range_of_lowPart_eq_wordSize hlen, fun _ => place_of_lt_lowPart, fun _ => place_of_lowPart_le hlen⟩
  case straddling =>
    have ht := lowPart_of_straddles hstraddles
    omega

/-- Settles O30: GET answers `afterGet`, and `getLsbD_getRange` says each bit of the value it reads. -/
theorem getReturnsTheRange : Obligations.GetReturnsTheRange := by
  refine ⟨fun s hlen hdef => ?value, fun s s' t t' hlen hregs hbits ht ht' => ?dependence⟩
  case value =>
    have hrun := execGet_of_defined hlen hdef
    exact ⟨_, hrun, toNat_getRange_lt _ _ _ hlen, fun k => getLsbD_getRange _ _ _ _ k hlen, rfl, exec_shellKept hrun,
      statusCompleted_of_setErr rfl⟩
  case dependence =>
    have hlen' : s'.lenN ≤ 64 := by
      unfold State.lenN
      rw [hregs]
      exact hlen
    obtain ⟨-, rfl⟩ := execGet_next hlen ht
    obtain ⟨-, rfl⟩ := execGet_next hlen' ht'
    exact afterGet_r0_congr hlen hregs hbits

/-- Settles O31: OVERWRITE answers `afterOverwrite`; inside the range `bitAt_overwriteRange` gives the bits of `VAL`,
outside it every bit of memory is as before. -/
theorem overwriteReplacesOnlyTheRange : Obligations.OverwriteReplacesOnlyTheRange := by
  intro s hlen hdef
  have hrun := execOverwrite_of_defined hlen hdef
  refine ⟨_, hrun, fun k hk => ?inside, fun g => bitAt_overwriteRange_outside _ _ hlen,
    (confined_overwriteRange_words _ _ _ _ _).kept, rfl, exec_shellKept hrun, statusCompleted_of_setErr rfl⟩
  case inside =>
    rw [afterOverwrite, State.complete_mem, State.setMem_mem, bitAt_overwriteRange _ _ _ _ _ _ hlen,
      if_pos (by omega), Nat.add_sub_cancel_left]

/-- Settles O32: GET of the range just overwritten reads the bits OVERWRITE put there, `VAL` below `LEN`. -/
theorem overwriteThenGetRoundTrips : Obligations.OverwriteThenGetRoundTrips := by
  intro s hlen hdef
  refine ⟨_, execOverwrite_of_defined hlen hdef, fun g => bitAt_overwriteRange_outside _ _ hlen,
    fun u hmem haw hsb hsw hoff hul => ?_⟩
  obtain ⟨hrun, hr0⟩ := execGet_after_overwrite hlen hdef hmem haw (congrArg BitVec.toNat hsb)
    (congrArg BitVec.toNat hsw) (congrArg BitVec.toNat hoff) (congrArg BitVec.toNat hul)
  exact ⟨_, hrun, hr0⟩

end Sys2Proof.Machine
end

section
/-! The bit-mover: one chunk, the turns of the loop, the window, and what COPY answers (42_bit_mover). -/

namespace Sys2Proof.Machine

open Safety (bitAt bytesKept copyDefined movedBits)

/-! ## One chunk (42_bit_mover R112) -/

/-- The shorter of the two ways to a word boundary reaches one. -/
theorem chunkLen_reaches_boundary (s d : Nat) : (s + chunkLen s d) % 64 = 0 ∨ (d + chunkLen s d) % 64 = 0 := by
  unfold chunkLen bitIdx
  omega

theorem bytesKept_copyChunk (m : Memory) (sb s db d : Nat) : bytesKept m (copyChunk m sb s db d) (db + d / 64) 1 :=
  (confined_orWord m _ (Nat.le_refl _) (Nat.lt_succ_self _)).kept

/-- What an iteration stores depends on the source word and the destination word alone. -/
theorem readWord_copyChunk_congr {m m' : Memory} {sb s db d : Nat}
    (hsource : m'.readWord (sb + s / 64) = m.readWord (sb + s / 64))
    (hdestination : m'.readWord (db + d / 64) = m.readWord (db + d / 64)) :
    (copyChunk m' sb s db d).readWord (db + d / 64) = (copyChunk m sb s db d).readWord (db + d / 64) := by
  simp only [copyChunk, readWord_orWord, wordIdx, hsource, hdestination]

/-- The loop of the bit-mover, whether or not it has a turn left (42_bit_mover R111). -/
theorem copyBits_eq (m : Memory) (sb s db d limit : Nat) :
    copyBits m sb s db d limit =
      if s < limit then copyBits (copyChunk m sb s db d) sb (s + chunkLen s d) db (d + chunkLen s d) limit else m := by
  split
  case isTrue hturn => exact copyBits_step m hturn
  case isFalse hdone => exact copyBits_done m (Nat.not_lt.1 hdone)

/-! ## The window of moved bits (42_bit_mover R113) -/

theorem movedBits_eq (s d limit : Nat) :
    movedBits s d (limit - s) =
      if s < limit then
        chunkLen s d + movedBits (s + chunkLen s d) (d + chunkLen s d) (limit - (s + chunkLen s d))
      else 0 := by
  split
  case isTrue hturn => exact movedBits_turn hturn
  case isFalse hdone => exact if_pos (Nat.sub_eq_zero_of_le (Nat.not_lt.1 hdone))

theorem le_movedBits (off aux len : Nat) : len ≤ movedBits off aux len := by
  unfold Safety.movedBits
  split <;> omega

theorem movedBits_le (off aux len : Nat) : movedBits off aux len ≤ len + 63 := by
  unfold Safety.movedBits Safety.overCopy
  split <;> omega

/-- A range that ends on a word boundary leaves nothing to over-copy. -/
theorem movedBits_of_aligned {off aux len : Nat} (h : (off + len) % 64 = 0 ∨ (aux + len) % 64 = 0) :
    movedBits off aux len = len := by
  unfold Safety.movedBits Safety.overCopy
  split <;> omega

theorem source_window_inside {s : State} (hlen : 1 ≤ s.lenN) (hdef : copyDefined s) :
    s.offN + movedBits s.offN s.auxN s.lenN ≤ 64 * s.swN := by
  obtain ⟨-, -, hsource, -⟩ := hdef
  have := source_movedBits_le (d := s.auxN) hsource (Nat.lt_add_of_pos_right hlen)
  rwa [Nat.add_sub_cancel_left] at this

theorem destination_window_inside {s : State} (hdef : copyDefined s) :
    s.auxN + movedBits s.offN s.auxN s.lenN ≤ 64 * s.dwN := by
  obtain ⟨-, -, -, hdestination⟩ := hdef
  exact destination_movedBits_le hdestination

/-! ## What COPY answers (42_bit_mover R111) -/

theorem execCopy_of_defined {s : State} (hdef : s.lenN = 0 ∨ copyDefined s) : exec .copy s = .next (afterCopy s) := by
  rcases execCopy_cases s with ⟨-, e⟩ | ⟨hundef, -⟩
  · exact e
  · exact absurd hdef hundef

theorem afterCopy_mem (s : State) :
    (afterCopy s).mem = copyBits s.mem s.sbN s.offN s.dbN s.auxN (s.offN + s.lenN) := rfl

theorem afterCopy_of_lenN_zero {s : State} (hlen : s.lenN = 0) : afterCopy s = s.complete := by
  unfold afterCopy
  rw [hlen, Nat.add_zero, copyBits_done s.mem (Nat.le_refl _)]
  rfl

theorem bytesKept_afterCopy {s : State} (hdef : s.lenN = 0 ∨ copyDefined s) :
    bytesKept s.mem (afterCopy s).mem s.dbN s.dwN := by
  rcases hdef with hlen | hdef
  · rw [afterCopy_of_lenN_zero hlen]
    exact fun _ _ => rfl
  · exact (confined_afterCopy hdef).kept

/-- COPY clears no bit of memory. -/
theorem bitAt_afterCopy_of_set {s : State} {g : Nat} (h : bitAt s.mem 0 g = true) :
    bitAt (afterCopy s).mem 0 g = true :=
  (bitAt_copyBits_or _ _ _ _ _ _ g).1 h

/-- Every bit of memory outside the window is as before, whatever overlaps. -/
theorem bitAt_afterCopy_outside {s : State} {g : Nat}
    (hg : ¬(64 * s.dbN + s.auxN ≤ g ∧ g < 64 * s.dbN + s.auxN + movedBits s.offN s.auxN s.lenN)) :
    bitAt (afterCopy s).mem 0 g = bitAt s.mem 0 g :=
  (bitAt_copyBits_or _ _ _ _ _ _ g).2 (by rwa [Nat.add_sub_cancel_left])

/-! ## Arrays that share no word (42_bit_mover R115) -/

theorem bitAt_afterCopy_window {s : State} (hdef : copyDefined s)
    (hdisj : Safety.disjointWords s.sbN s.swN s.dbN s.dwN) {k : Nat} (hk : k < movedBits s.offN s.auxN s.lenN) :
    bitAt (afterCopy s).mem s.dbN (s.auxN + k) =
      (bitAt s.mem s.dbN (s.auxN + k) || bitAt s.mem s.sbN (s.offN + k)) := by
  obtain ⟨-, -, hsource, hdestination⟩ := hdef
  have hwindow : s.auxN ≤ s.auxN + k ∧ s.auxN + k < s.auxN + movedBits s.offN s.auxN s.lenN := by omega
  rw [afterCopy_mem, bitAt_copyBits s.mem (fun _ => hsource) (fun _ => by omega) (words_apart hdisj),
    Nat.add_sub_cancel_left, decide_eq_true hwindow, Bool.true_and, Nat.add_sub_cancel_left]

theorem readWord_afterCopy_source {s : State} (hdef : copyDefined s)
    (hdisj : Safety.disjointWords s.sbN s.swN s.dbN s.dwN) {i : Nat} (hi : i < s.swN) :
    (afterCopy s).mem.readWord (s.sbN + i) = s.mem.readWord (s.sbN + i) :=
  (confined_afterCopy hdef).readWord fun hmeet =>
    words_apart hdisj i (s.sbN + i - s.dbN) hi (by omega) (by omega)

/-! ## The words COPY depends on (42_bit_mover R112, R113) -/

/-- A word of the source array or of the destination array. -/
def State.inCopyArrays (s : State) (a : Nat) : Prop :=
  (∃ i, i < s.swN ∧ a = s.sbN + i) ∨ ∃ i, i < s.dwN ∧ a = s.dbN + i

theorem State.inCopyArrays_source {s : State} {i : Nat} (hi : i < s.swN) : s.inCopyArrays (s.sbN + i) :=
  .inl ⟨i, hi, rfl⟩

theorem State.inCopyArrays_destination {s : State} {i : Nat} (hi : i < s.dwN) : s.inCopyArrays (s.dbN + i) :=
  .inr ⟨i, hi, rfl⟩

theorem copyDefined_congr {s s' : State} (hregs : s'.regs = s.regs) (haw : s'.aw = s.aw) (hdef : copyDefined s) :
    copyDefined s' := by
  unfold Safety.copyDefined Safety.inMemory State.sbN State.swN State.dbN State.dwN State.offN State.auxN State.lenN
  rw [hregs, haw]
  exact hdef

theorem afterCopy_mem_of_regs {s s' : State} (hregs : s'.regs = s.regs) :
    (afterCopy s').mem = copyBits s'.mem s.sbN s.offN s.dbN s.auxN (s.offN + s.lenN) := by
  unfold State.sbN State.offN State.dbN State.auxN State.lenN
  rw [← hregs]
  rfl

/-- Memories that agree on the words of the two arrays, overlapping or not, agree on them after COPY. -/
theorem readWord_afterCopy_congr {s s' : State} (hdef : copyDefined s) (hregs : s'.regs = s.regs)
    (hagree : ∀ a, s.inCopyArrays a → s'.mem.readWord a = s.mem.readWord a) {a : Nat} (ha : s.inCopyArrays a) :
    (afterCopy s').mem.readWord a = (afterCopy s).mem.readWord a := by
  obtain ⟨-, -, hsource, hdestination⟩ := hdef
  rw [afterCopy_mem_of_regs hregs, afterCopy_mem]
  exact copyBits_agree (fun _ => State.inCopyArrays_source) (fun _ => State.inCopyArrays_destination) hagree
    (fun _ => hsource) (fun _ => by omega) a ha

/-! ## Statements -/

/-- Settles O34: a chunk is the shorter way to a word boundary, and an iteration is one read-modify-write of the
destination word. -/
theorem chunkStaysInOneWordOnEachSide : Obligations.ChunkStaysInOneWordOnEachSide := by
  intro s d
  obtain ⟨hsource, hdestination⟩ := chunkLen_le s d
  exact ⟨chunkLen_pos s d, hsource, hdestination, chunkLen_reaches_boundary s d, fun m sb db =>
    ⟨bytesKept_copyChunk m sb s db d, fun _ => readWord_copyChunk_congr⟩⟩

/-- Settles O35: the equation of the pseudocode is `copyBits_eq` with the chunk written out, and COPY answers
`afterCopy`. -/
theorem copyFollowsThePseudocode : Obligations.CopyFollowsThePseudocode := by
  refine ⟨copyBits_eq, fun s hdef => ?_⟩
  have hrun := execCopy_of_defined hdef
  exact ⟨_, hrun, afterCopy_mem s, rfl, exec_shellKept hrun, statusCompleted_of_setErr rfl⟩

/-- Settles O36: with `LEN = 0` the loop has no turn, so COPY only completes. -/
theorem zeroLengthCopyChangesNothing : Obligations.ZeroLengthCopyChangesNothing := by
  intro s hlen
  have hrun := execCopy_of_defined (.inl hlen)
  rw [afterCopy_of_lenN_zero hlen] at hrun
  exact ⟨_, hrun, rfl, statusCompleted_of_setErr rfl⟩

/-- Settles O37: `bitAt_copyBits_or`, for any overlap, on the memory COPY answers. -/
theorem copyOnlyOrsIntoItsWindow : Obligations.CopyOnlyOrsIntoItsWindow := by
  intro s hdef
  have hrun := execCopy_of_defined hdef
  exact ⟨_, hrun, fun _ => bitAt_afterCopy_of_set, fun _ => bitAt_afterCopy_outside, bytesKept_afterCopy hdef, rfl,
    exec_shellKept hrun, statusCompleted_of_setErr rfl⟩

/-- Settles O38: with the arrays apart no turn reads a bit an earlier turn wrote, so `bitAt_copyBits` gives every bit
of the window; onto zeros the old value drops out. -/
theorem copyMovesRangeAndWindow : Obligations.CopyMovesRangeAndWindow := by
  intro s _ hdef hdisj
  refine ⟨_, execCopy_of_defined (.inr hdef), fun _ => bitAt_afterCopy_window hdef hdisj,
    fun _ => bitAt_afterCopy_outside, fun _ => readWord_afterCopy_source hdef hdisj, fun hzero k hk => ?ontoZeros⟩
  case ontoZeros => rw [bitAt_afterCopy_window hdef hdisj hk, hzero k hk, Bool.false_or]

/-- Settles O39: the window follows the turns of the loop and stays in both arrays; two runs that agree on the words of
the arrays make the same turns on the same words. -/
theorem overCopyWindowStaysInTheArrays : Obligations.OverCopyWindowStaysInTheArrays := by
  refine ⟨movedBits_eq, fun s hlen hdef => ?_⟩
  refine ⟨le_movedBits _ _ _, movedBits_le _ _ _, movedBits_of_aligned, source_window_inside hlen hdef,
    destination_window_inside hdef, _, execCopy_of_defined (.inr hdef), (confined_afterCopy hdef).kept,
    fun s' hregs haw hsource hdestination => ?dependence⟩
  case dependence =>
    have hagree : ∀ a, s.inCopyArrays a → s'.mem.readWord a = s.mem.readWord a := by
      rintro a (⟨i, hi, rfl⟩ | ⟨i, hi, rfl⟩)
      · exact hsource i hi
      · exact hdestination i hi
    exact ⟨_, execCopy_of_defined (.inr (copyDefined_congr hregs haw hdef)),
      fun _ hi => readWord_afterCopy_congr hdef hregs hagree (State.inCopyArrays_source hi),
      fun _ hi => readWord_afterCopy_congr hdef hregs hagree (State.inCopyArrays_destination hi)⟩

end Sys2Proof.Machine
end

section
/-! The structural editor: the splice INSERT and REMOVE share, bit by bit and word by word, and what the two commands
answer (43_structural_editor). -/

namespace Sys2Proof.Machine

open Safety (bitAt bytesKept ceilWords cleanVector insertDefined movedBits overCopy removeDefined)

/-! ## Arrays with the same bits -/

/-- Arrays with the same bits in their first `n` words have the same words there. -/
theorem readWord_of_bitAt_array {m m' : Memory} {a b n : Nat} (h : ∀ g, g < 64 * n → bitAt m' b g = bitAt m a g)
    {i : Nat} (hi : i < n) : m'.readWord (b + i) = m.readWord (a + i) := by
  apply BitVec.eq_of_getLsbD_eq
  intro k hk
  have hbit := h (64 * i + k) (by omega)
  unfold Safety.bitAt at hbit
  rwa [show (64 * i + k) / 64 = i by omega, show (64 * i + k) % 64 = k by omega] at hbit

/-! ## The bits beyond the asked range (42_bit_mover R113) -/

/-- Bits over-copied from beyond the source length lie in the source's padding. -/
theorem add_lt_of_lt_overCopy {n n' k : Nat} (hk : k < overCopy n n') : n + k < 64 * ceilWords n := by
  unfold Safety.overCopy at hk
  unfold Safety.ceilWords
  omega

/-! ## The splice both commands perform (43_structural_editor R125) -/

/-- `t` comes from `s` by a splice: a new array of `newLen` bits apart from the input, made of the input bits below
`OFF` in place and the input bits from `src` up relayed to `dst` up. -/
structure Spliced (s t : State) (src dst newLen : Nat) : Prop where
  mem_eq : t.mem = splice s.mem s.sbN s.dbN s.offN (ceilWords newLen) src dst s.auxN
  r0_eq : t.r0.toNat = ceilWords newLen
  swN_eq : s.swN = ceilWords s.auxN
  off_le_src : s.offN ≤ src
  src_le : src ≤ s.auxN
  off_le_dst : s.offN ≤ dst
  newLen_eq : newLen = dst + (s.auxN - src)
  apart : Safety.disjointWords s.sbN s.swN s.dbN (ceilWords newLen)

namespace Spliced

variable {s t : State} {src dst newLen : Nat}

theorem confined (h : Spliced s t src dst newLen) : Confined s.mem t.mem s.dbN (ceilWords newLen) := by
  obtain ⟨hmem, -, -, -, -, hdst, hnew, -⟩ := h
  obtain ⟨hholds, -⟩ := padding_of_ceilWords newLen
  rw [hmem]
  exact confined_splice _ (by omega) fun _ => by omega

/-- The input array is as before (43_structural_editor R136). -/
theorem readWord_source (h : Spliced s t src dst newLen) {i : Nat} (hi : i < s.swN) :
    t.mem.readWord (s.sbN + i) = s.mem.readWord (s.sbN + i) :=
  h.confined.readWord fun hmeet => words_apart h.apart i (s.sbN + i - s.dbN) hi (by omega) (by omega)

/-- The new array bit by bit: the kept head and the relayed window. -/
theorem bitAt_new (h : Spliced s t src dst newLen) {g : Nat} (hg : g < 64 * ceilWords newLen) :
    bitAt t.mem s.dbN g =
      ((decide (g < s.offN) && bitAt s.mem s.sbN g) ||
        (decide (dst ≤ g ∧ g < dst + movedBits src dst (s.auxN - src)) && bitAt s.mem s.sbN (src + (g - dst)))) := by
  obtain ⟨hmem, -, hsw, hoff, hsrc, hdst, hnew, hapart⟩ := h
  obtain ⟨hholds, -⟩ := padding_of_ceilWords newLen
  obtain ⟨hsource, -⟩ := padding_of_ceilWords s.auxN
  rw [hmem]
  exact bitAt_splice s.mem (n := s.swN) (by omega) (by omega) (fun _ => by omega) (fun _ => by omega)
    (words_apart hapart) hg

/-- Where the window of the relay ends: `E` bits beyond the new length, and nowhere when there is nothing to relay
(43_structural_editor R135). -/
theorem movedBits_relay (h : Spliced s t src dst newLen) :
    movedBits src dst (s.auxN - src) = if src < s.auxN then s.auxN - src + overCopy s.auxN newLen else 0 := by
  obtain ⟨-, -, -, -, hsrc, -, hnew, -⟩ := h
  unfold Safety.movedBits
  rw [← hnew, Nat.add_sub_cancel' hsrc]
  split <;> split <;> omega

/-- Bits below `OFF` are the input's. -/
theorem bitAt_head (h : Spliced s t src dst newLen) {g : Nat} (hg : g < s.offN) :
    bitAt t.mem s.dbN g = bitAt s.mem s.sbN g := by
  obtain ⟨hholds, -⟩ := padding_of_ceilWords newLen
  have hdst := h.off_le_dst
  have hnew := h.newLen_eq
  rw [h.bitAt_new (by omega), decide_eq_true hg, decide_eq_false (by omega), Bool.true_and, Bool.false_and,
    Bool.or_false]

/-- Bits from `OFF` to where the relay begins are 0. -/
theorem bitAt_gap (h : Spliced s t src dst newLen) {g : Nat} (hlow : s.offN ≤ g) (hhigh : g < dst) :
    bitAt t.mem s.dbN g = false := by
  obtain ⟨hholds, -⟩ := padding_of_ceilWords newLen
  have hnew := h.newLen_eq
  rw [h.bitAt_new (by omega), decide_eq_false (by omega), decide_eq_false (by omega), Bool.false_and, Bool.false_and,
    Bool.or_false]

/-- Bits from where the relay begins to the new length are the input's from `src` up. -/
theorem bitAt_tail (h : Spliced s t src dst newLen) {g : Nat} (hlow : dst ≤ g) (hhigh : g < newLen) :
    bitAt t.mem s.dbN g = bitAt s.mem s.sbN (src + (g - dst)) := by
  obtain ⟨hholds, -⟩ := padding_of_ceilWords newLen
  have hdst := h.off_le_dst
  have hnew := h.newLen_eq
  have hmoved := le_movedBits src dst (s.auxN - src)
  rw [h.bitAt_new (by omega), decide_eq_false (by omega), decide_eq_true (by omega), Bool.false_and, Bool.true_and,
    Bool.false_or]

/-- Padding bits are the `E` bits the relay carries over, and 0 above them (43_structural_editor R135). -/
theorem bitAt_padding (h : Spliced s t src dst newLen) {k : Nat} (hk : newLen + k < 64 * ceilWords newLen) :
    bitAt t.mem s.dbN (newLen + k) =
      (decide (src < s.auxN ∧ k < overCopy s.auxN newLen) && bitAt s.mem s.sbN (s.auxN + k)) := by
  have hsrc := h.src_le
  have hdst := h.off_le_dst
  have hnew := h.newLen_eq
  have hwindow : (dst ≤ newLen + k ∧ newLen + k < dst + movedBits src dst (s.auxN - src)) ↔
      (src < s.auxN ∧ k < overCopy s.auxN newLen) := by
    rw [h.movedBits_relay]
    split <;> omega
  rw [h.bitAt_new hk, decide_eq_false (by omega), Bool.false_and, Bool.false_or, decide_eq_decide.2 hwindow,
    show src + (newLen + k - dst) = s.auxN + k by omega]

/-- A clean input gives a clean result. -/
theorem clean (h : Spliced s t src dst newLen) (hclean : cleanVector s.mem s.sbN s.auxN) :
    cleanVector t.mem s.dbN newLen := by
  intro g hlow hhigh
  obtain ⟨k, rfl⟩ := Nat.exists_eq_add_of_le hlow
  rw [h.bitAt_padding hhigh]
  by_cases hcarried : src < s.auxN ∧ k < overCopy s.auxN newLen
  · rw [hclean _ (Nat.le_add_right _ _) (add_lt_of_lt_overCopy hcarried.2), Bool.and_false]
  · rw [decide_eq_false hcarried, Bool.false_and]

/-- A splice of nothing leaves the bits below the length, and the padding when it is carried over whole or is zero
(43_structural_editor R134). -/
theorem bitAt_of_nothing_spliced (h : Spliced s t s.offN s.offN s.auxN)
    (hpad : s.offN < s.auxN ∨ cleanVector s.mem s.sbN s.auxN) {g : Nat} (hg : g < 64 * ceilWords s.auxN) :
    bitAt t.mem s.dbN g = bitAt s.mem s.sbN g := by
  rcases Nat.lt_or_ge g s.auxN with hlogical | hpadding
  · rcases Nat.lt_or_ge g s.offN with hhead | htail
    · exact h.bitAt_head hhead
    · rw [h.bitAt_tail htail hlogical, Nat.add_sub_cancel' htail]
  · rcases hpad with hrelay | hclean
    · obtain ⟨k, rfl⟩ := Nat.exists_eq_add_of_le hpadding
      have hcarried : k < overCopy s.auxN s.auxN := by
        unfold Safety.overCopy
        unfold Safety.ceilWords at hg
        omega
      rw [h.bitAt_padding hg, decide_eq_true ⟨hrelay, hcarried⟩, Bool.true_and]
    · rw [h.clean hclean g hpadding hg, hclean g hpadding hg]

theorem readWord_of_nothing_spliced (h : Spliced s t s.offN s.offN s.auxN)
    (hpad : s.offN < s.auxN ∨ cleanVector s.mem s.sbN s.auxN) {i : Nat} (hi : i < s.swN) :
    t.mem.readWord (s.dbN + i) = s.mem.readWord (s.sbN + i) :=
  readWord_of_bitAt_array (fun _ hg => h.bitAt_of_nothing_spliced hpad hg) (h.swN_eq ▸ hi)

end Spliced

/-! ## What INSERT and REMOVE answer (43_structural_editor R126, R131) -/

theorem execInsert_of_defined {s : State} (hdef : insertDefined s) : exec .insert s = .next (afterInsert s) := by
  rcases execInsert_cases s with ⟨-, e⟩ | ⟨hundef, -⟩
  · exact e
  · exact absurd hdef hundef

theorem execRemove_of_defined {s : State} (hdef : removeDefined s) : exec .remove s = .next (afterRemove s) := by
  rcases execRemove_cases s with ⟨-, e⟩ | ⟨hundef, -⟩
  · exact e
  · exact absurd hdef hundef

theorem afterInsert_spliced {s : State} (hdef : insertDefined s) :
    Spliced s (afterInsert s) s.offN (s.offN + s.lenN) (s.auxN + s.lenN) := by
  obtain ⟨hsw, hoff, -, hfits, hapart⟩ := hdef
  refine ⟨?mem, ?r0, hsw, Nat.le_refl _, hoff, Nat.le_add_right _ _, by omega, hapart⟩
  case mem => rw [← wordsFor_eq]; rfl
  case r0 => rw [afterInsert, State.complete_r0, State.setR0_r0, wordsFor_eq]; exact toNat_ofNat_words hfits

theorem afterRemove_spliced {s : State} (hdef : removeDefined s) :
    Spliced s (afterRemove s) (s.offN + s.lenN) s.offN (s.auxN - s.lenN) := by
  obtain ⟨hsw, hinside, -, hfits, hapart⟩ := hdef
  refine ⟨?mem, ?r0, hsw, Nat.le_add_right _ _, hinside, Nat.le_refl _, by omega, hapart⟩
  case mem => rw [← wordsFor_eq]; rfl
  case r0 => rw [afterRemove, State.complete_r0, State.setR0_r0, wordsFor_eq]; exact toNat_ofNat_words hfits

theorem bitAt_afterInsert_above {s : State} (hdef : insertDefined s) {g : Nat} (hlow : s.offN + s.lenN ≤ g)
    (hhigh : g < s.auxN + s.lenN) : bitAt (afterInsert s).mem s.dbN g = bitAt s.mem s.sbN (g - s.lenN) := by
  rw [(afterInsert_spliced hdef).bitAt_tail hlow hhigh, show s.offN + (g - (s.offN + s.lenN)) = g - s.lenN by omega]

theorem bitAt_afterRemove_above {s : State} (hdef : removeDefined s) {g : Nat} (hlow : s.offN ≤ g)
    (hhigh : g < s.auxN - s.lenN) : bitAt (afterRemove s).mem s.dbN g = bitAt s.mem s.sbN (g + s.lenN) := by
  rw [(afterRemove_spliced hdef).bitAt_tail hlow hhigh, show s.offN + s.lenN + (g - s.offN) = g + s.lenN by omega]

/-! ## REMOVE after INSERT (43_structural_editor R133) -/

/-- REMOVE of the inserted range, from INSERT's result to any place that fits and is apart from it, is defined. -/
theorem removeDefined_after_insert {s u : State} (hdef : insertDefined s) (haw : u.aw = s.aw)
    (hsb : u.sbN = s.dbN) (hsw : u.swN = ceilWords (s.auxN + s.lenN)) (haux : u.auxN = s.auxN + s.lenN)
    (hoff : u.offN = s.offN) (hlen : u.lenN = s.lenN) (hfits : Safety.inMemory u u.dbN (ceilWords s.auxN))
    (hapart : Safety.disjointWords u.sbN u.swN u.dbN (ceilWords s.auxN)) : removeDefined u := by
  obtain ⟨-, hinside, -, hnew, -⟩ := hdef
  have hback : u.auxN - u.lenN = s.auxN := by omega
  refine ⟨by rw [hsw, haux], by omega, ?resultFits, hback ▸ hfits, hback ▸ hapart⟩
  case resultFits =>
    unfold Safety.inMemory at hnew ⊢
    rwa [hsb, hsw, haw]

/-- The two relays cancel: every bit below the first length is back in place. -/
theorem bitAt_remove_after_insert {s u : State} (hins : insertDefined s) (hrem : removeDefined u)
    (hmem : u.mem = (afterInsert s).mem) (hsb : u.sbN = s.dbN) (haux : u.auxN = s.auxN + s.lenN)
    (hoff : u.offN = s.offN) (hlen : u.lenN = s.lenN) {g : Nat} (hg : g < s.auxN) :
    bitAt (afterRemove u).mem u.dbN g = bitAt s.mem s.sbN g := by
  rcases Nat.lt_or_ge g s.offN with hbelow | habove
  · rw [(afterRemove_spliced hrem).bitAt_head (by omega), hmem, hsb, (afterInsert_spliced hins).bitAt_head hbelow]
  · rw [bitAt_afterRemove_above hrem (by omega) (by omega), hmem, hsb, hlen,
      bitAt_afterInsert_above hins (by omega) (by omega), Nat.add_sub_cancel]

/-! ## Statements -/

/-- Settles O40: INSERT answers a splice whose relay begins `LEN` bits above `OFF`, so the bits between are 0. -/
theorem insertSplicesZeroBits : Obligations.InsertSplicesZeroBits := by
  intro s hdef
  have hsplice := afterInsert_spliced hdef
  have hrun := execInsert_of_defined hdef
  exact ⟨_, hrun, hsplice.r0_eq, fun _ => hsplice.bitAt_head, fun _ => hsplice.bitAt_gap,
    fun _ => bitAt_afterInsert_above hdef, fun _ => hsplice.readWord_source, hsplice.confined.kept,
    exec_shellKept hrun, statusCompleted_of_setErr rfl⟩

/-- Settles O41: REMOVE answers a splice that relays the input from `OFF + LEN` up to `OFF`. -/
theorem removeCutsTheRange : Obligations.RemoveCutsTheRange := by
  intro s hdef
  have hsplice := afterRemove_spliced hdef
  have hrun := execRemove_of_defined hdef
  exact ⟨_, hrun, hsplice.r0_eq, fun _ => hsplice.bitAt_head, fun _ => bitAt_afterRemove_above hdef,
    fun _ => hsplice.readWord_source, hsplice.confined.kept, exec_shellKept hrun, statusCompleted_of_setErr rfl⟩

/-- Settles O42: REMOVE is defined on INSERT's result, and its relay takes back what INSERT's moved. -/
theorem removeUndoesInsert : Obligations.RemoveUndoesInsert := by
  intro s hins
  refine ⟨_, execInsert_of_defined hins, fun u hmem haw hsb hsw haux hoff hlen hfits hapart => ?_⟩
  have hsbN : u.sbN = s.dbN := congrArg BitVec.toNat hsb
  have hswN : u.swN = ceilWords (s.auxN + s.lenN) :=
    (congrArg BitVec.toNat hsw).trans (afterInsert_spliced hins).r0_eq
  have hoffN : u.offN = s.offN := congrArg BitVec.toNat hoff
  have hlenN : u.lenN = s.lenN := congrArg BitVec.toNat hlen
  have hrem := removeDefined_after_insert hins haw hsbN hswN haux hoffN hlenN hfits hapart
  refine ⟨_, execRemove_of_defined hrem, ?words,
    fun _ => bitAt_remove_after_insert hins hrem hmem hsbN haux hoffN hlenN⟩
  case words => rw [(afterRemove_spliced hrem).r0_eq, haux, hlenN, Nat.add_sub_cancel]

/-- Settles O43: with `LEN = 0` either command relays the input from `OFF` to `OFF`. -/
theorem zeroLengthSpliceCopiesTheVector : Obligations.ZeroLengthSpliceCopiesTheVector := by
  intro s hlen
  constructor
  · intro hdef
    have hsplice := afterInsert_spliced hdef
    rw [hlen, Nat.add_zero, Nat.add_zero] at hsplice
    exact ⟨_, execInsert_of_defined hdef, hsplice.r0_eq.trans hsplice.swN_eq.symm,
      fun hpad _ => hsplice.readWord_of_nothing_spliced hpad⟩
  · intro hdef
    have hsplice := afterRemove_spliced hdef
    rw [hlen, Nat.add_zero, Nat.sub_zero] at hsplice
    exact ⟨_, execRemove_of_defined hdef, hsplice.r0_eq.trans hsplice.swN_eq.symm,
      fun hpad _ => hsplice.readWord_of_nothing_spliced hpad⟩

/-- Settles O44: the padding of a splice is `Spliced.bitAt_padding`, whichever command makes it. -/
theorem splicePaddingIsExact : Obligations.SplicePaddingIsExact :=
  ⟨fun _ hdef =>
    ⟨_, execInsert_of_defined hdef, fun _ => (afterInsert_spliced hdef).bitAt_padding,
      (afterInsert_spliced hdef).clean⟩,
   fun _ hdef =>
    ⟨_, execRemove_of_defined hdef, fun _ => (afterRemove_spliced hdef).bitAt_padding,
      (afterRemove_spliced hdef).clean⟩⟩

end Sys2Proof.Machine
end

section
/-! The comparator: the word COMPARE answers, and what exchanging its arrays does to it (44_comparator). -/

namespace Sys2Proof.Machine

open Safety (compareDefined limbValue)

/-! ## What COMPARE answers (44_comparator R145, R146) -/

theorem execCompare_of_defined {s : State} (hdef : compareDefined s) : exec .compare s = .next (afterCompare s) := by
  rcases execCompare_cases s with ⟨-, e⟩ | ⟨hundef, -⟩
  · exact e
  · exact absurd hdef hundef

/-- The answer is the order of the arrays read as big-endian numbers. -/
theorem afterCompare_r0 (s : State) :
    (afterCompare s).r0 = sext64 (natOrder (limbValue s.mem s.sbN s.swN) (limbValue s.mem s.dbN s.swN)) := by
  rw [afterCompare, State.complete_r0, State.setR0_r0, compareLoop_eq _ s.sbN s.dbN _ 0 rfl, Nat.zero_add]

/-! ## Exchanging the arrays (44_comparator R148) -/

theorem sext64_neg (n : Int) : sext64 (-n) = -sext64 n := BitVec.ofInt_neg

/-- The second state has the first one's memory, with the arrays named in the other order. -/
structure Exchanged (s u : State) : Prop where
  mem : u.mem = s.mem
  aw : u.aw = s.aw
  sbN : u.sbN = s.dbN
  swN : u.swN = s.dwN
  dbN : u.dbN = s.sbN
  dwN : u.dwN = s.swN

theorem Exchanged.defined {s u : State} (h : Exchanged s u) (hdef : compareDefined s) : compareDefined u := by
  obtain ⟨hshape, hfirst, hsecond⟩ := hdef
  unfold compareDefined Safety.inMemory
  rw [h.sbN, h.swN, h.dbN, h.dwN, h.aw]
  exact ⟨hshape.symm, hsecond, hfirst⟩

theorem Exchanged.r0_eq_neg {s u : State} (h : Exchanged s u) (hdef : compareDefined s) :
    (afterCompare u).r0 = -(afterCompare s).r0 := by
  obtain ⟨hshape, -, -⟩ := hdef
  rw [afterCompare_r0, afterCompare_r0, h.mem, h.sbN, h.dbN, h.swN, ← hshape, natOrder_swap, sext64_neg]

/-! ## Statements -/

/-- Settles O45: the answer is the sign-extended order of the two numbers, one word for each of its three cases. -/
theorem compareOrdersBigEndianNumbers : Obligations.CompareOrdersBigEndianNumbers := by
  intro s hdef
  have hrun := execCompare_of_defined hdef
  obtain ⟨hequal, hgreater, hless⟩ := sext64_natOrder (limbValue s.mem s.sbN s.swN) (limbValue s.mem s.dbN s.swN)
  rw [← afterCompare_r0] at hequal hgreater hless
  exact ⟨_, hrun, hless.2, hequal.2, hgreater.2, rfl, exec_shellKept hrun, statusCompleted_of_setErr rfl⟩

/-- Settles O46: the order is 0 exactly on equal numbers, so on equal words, and it is negated when the arrays are
exchanged. -/
theorem compareIsConsistent : Obligations.CompareIsConsistent := by
  intro s hdef
  refine ⟨_, execCompare_of_defined hdef, ?zero, fun u hmem haw hsb hsw hdb hdw => ?exchange⟩
  case zero =>
    rw [afterCompare_r0, (sext64_natOrder _ _).1]
    exact limbValue_eq_iff ..
  case exchange =>
    have hexchanged : Exchanged s u := ⟨hmem, haw, congrArg BitVec.toNat hsb, congrArg BitVec.toNat hsw,
      congrArg BitVec.toNat hdb, congrArg BitVec.toNat hdw⟩
    exact ⟨_, execCompare_of_defined (hexchanged.defined hdef), hexchanged.r0_eq_neg hdef⟩

end Sys2Proof.Machine
end

section
/-! The interleaver: what INTERLEAVE answers, its new array as the number `Z`, and the order COMPARE finds between two
such arrays (45_interleaver). -/

namespace Sys2Proof.Machine

open Safety (ceilWords compareDefined cursorBit interleaveDefined limbValue vectorBit zValue)

/-! ## Arrays given as numbers (20_memory R41, R42) -/

/-- Cursor positions counted down from the end of an array count its bits up from bit 0 of its last word. -/
theorem cursorBit_from_end (m : Memory) (base : Nat) {n e : Nat} (he : e < 64 * n) :
    cursorBit m base (64 * n - 1 - e) = (m.readWord (base + (n - 1 - e / 64))).getLsbD (e % 64) := by
  have hword : (64 * n - 1 - e) / 64 = n - 1 - e / 64 := by omega
  have hbit : 63 - (64 * n - 1 - e) % 64 = e % 64 := by omega
  unfold Safety.cursorBit
  rw [hword, hbit]

/-- A word whose bits are the bits of `z` from `k` up is that digit of `z`. -/
theorem toNat_eq_digit {w : Word} {z k : Nat} (h : ∀ b, b < 64 → w.getLsbD b = z.testBit (k + b)) :
    w.toNat = z / 2 ^ k % 2 ^ 64 := by
  apply Nat.eq_of_testBit_eq
  intro b
  rw [BitVec.testBit_toNat, Nat.testBit_mod_two_pow, Nat.testBit_div_two_pow]
  by_cases hb : b < 64
  · rw [h b hb, decide_eq_true hb, Bool.true_and, Nat.add_comm]
  · rw [BitVec.getLsbD_of_ge _ _ (Nat.not_lt.1 hb), decide_eq_false hb, Bool.false_and]

/-! ## The number an INTERLEAVE makes (45_interleaver R157) -/

/-- `Z` of the vectors the operand registers name. -/
def State.zKey (s : State) : Nat := zValue s.mem s.sbN s.lenN s.auxN s.lenN

theorem State.zKey_lt (s : State) : s.zKey < 2 ^ (s.lenN * s.auxN) := zValue_lt ..

theorem State.testBit_zKey_of_le (s : State) {e : Nat} (he : s.lenN * s.auxN ≤ e) : s.zKey.testBit e = false :=
  Nat.testBit_lt_two_pow (s.zKey_lt.trans_le (Nat.pow_le_pow_right (by decide) he))

/-- Emission `i K + (K − 1 − j)` is one of the `B K` emissions. -/
theorem emission_lt {bits count i j : Nat} (hi : i < bits) (hj : j < count) :
    i * count + (count - 1 - j) < bits * count :=
  calc i * count + (count - 1 - j) < (i + 1) * count := by rw [Nat.succ_mul]; omega
    _ ≤ bits * count := Nat.mul_le_mul_right count hi

/-- Bit `i K + (K − 1 − j)` of `Z` is bit `i` of vector `j`. -/
theorem State.testBit_zKey_emission (s : State) {i j : Nat} (hi : i < s.lenN) (hj : j < s.auxN) :
    s.zKey.testBit (i * s.auxN + (s.auxN - 1 - j)) = vectorBit s.mem s.sbN s.lenN i j := by
  have hsmall : s.auxN - 1 - j < s.auxN := by omega
  have hlevel : (i * s.auxN + (s.auxN - 1 - j)) / s.auxN = i := by
    rw [Nat.mul_comm, Nat.mul_add_div (by omega), Nat.div_eq_of_lt hsmall, Nat.add_zero]
  have hvector : (i * s.auxN + (s.auxN - 1 - j)) % s.auxN = s.auxN - 1 - j := by
    rw [Nat.mul_comm, Nat.mul_add_mod, Nat.mod_eq_of_lt hsmall]
  rw [zKey, testBit_zValue, decide_eq_true (emission_lt hi hj), Bool.true_and, hlevel, hvector,
    show s.auxN - 1 - (s.auxN - 1 - j) = j by omega]

/-! ## What INTERLEAVE answers (45_interleaver R156) -/

theorem execInterleave_of_defined {s : State} (hdef : interleaveDefined s) :
    exec .interleave s = .next (afterInterleave s) := by
  rcases execInterleave_cases s with ⟨-, e⟩ | ⟨hundef, -⟩
  · exact e
  · exact absurd hdef hundef

theorem execInterleave_next {s t : State} (h : exec .interleave s = .next t) :
    interleaveDefined s ∧ t = afterInterleave s := by
  rcases execInterleave_cases s with ⟨hdef, e⟩ | ⟨-, f, e⟩ <;> cases e.symm.trans h
  exact ⟨hdef, rfl⟩

section

variable {s : State} (hdef : interleaveDefined s)
include hdef

theorem afterInterleave_r0_toNat : (afterInterleave s).r0.toNat = ceilWords (s.lenN * s.auxN) := by
  obtain ⟨-, -, hfits, -⟩ := hdef
  rw [afterInterleave, State.complete_r0, State.setR0_r0, wordsFor_eq]
  exact toNat_ofNat_words hfits

/-- The bits of the new array, from its last word's bit 0 up, are the bits of `Z`. -/
theorem getLsbD_afterInterleave {e : Nat} (he : e < 64 * ceilWords (s.lenN * s.auxN)) :
    ((afterInterleave s).mem.readWord (s.dbN + (ceilWords (s.lenN * s.auxN) - 1 - e / 64))).getLsbD (e % 64) =
      s.zKey.testBit e := by
  rw [State.zKey, testBit_zValue]
  exact getLsbD_interleaveBits s.mem (interleave_apart hdef) he

theorem cursorBit_afterInterleave {e : Nat} (he : e < 64 * ceilWords (s.lenN * s.auxN)) :
    cursorBit (afterInterleave s).mem s.dbN (64 * ceilWords (s.lenN * s.auxN) - 1 - e) = s.zKey.testBit e :=
  (cursorBit_from_end _ _ he).trans (getLsbD_afterInterleave hdef he)

/-- Word `w` of the new array is a 64-bit digit of `Z`, word 0 the most significant. -/
theorem toNat_readWord_afterInterleave {w : Nat} (hw : w < ceilWords (s.lenN * s.auxN)) :
    ((afterInterleave s).mem.readWord (s.dbN + w)).toNat =
      s.zKey / 2 ^ (64 * (ceilWords (s.lenN * s.auxN) - 1 - w)) % 2 ^ 64 := by
  refine toNat_eq_digit fun b hb => ?_
  have hword : ceilWords (s.lenN * s.auxN) - 1 - (64 * (ceilWords (s.lenN * s.auxN) - 1 - w) + b) / 64 = w := by omega
  rw [← getLsbD_afterInterleave hdef (by omega), hword, Nat.mul_add_mod, Nat.mod_eq_of_lt hb]

theorem limbValue_afterInterleave :
    limbValue (afterInterleave s).mem s.dbN (ceilWords (s.lenN * s.auxN)) = s.zKey := by
  obtain ⟨hholds, -⟩ := padding_of_ceilWords (s.lenN * s.auxN)
  have hbound : s.zKey < 2 ^ (64 * ceilWords (s.lenN * s.auxN)) :=
    s.zKey_lt.trans_le (Nat.pow_le_pow_right (by decide) hholds)
  exact limbValue_of_digits _ _ _ _ hbound fun _ => toNat_readWord_afterInterleave hdef

/-- Cursor positions before the emissions are 0 (45_interleaver R158). -/
theorem cursorBit_afterInterleave_padding {c : Nat}
    (hc : c < 64 * ceilWords (s.lenN * s.auxN) - s.lenN * s.auxN) :
    cursorBit (afterInterleave s).mem s.dbN c = false := by
  have hmirror := cursorBit_afterInterleave hdef (e := 64 * ceilWords (s.lenN * s.auxN) - 1 - c) (by omega)
  rwa [s.testBit_zKey_of_le (by omega), Nat.sub_sub_self (by omega)] at hmirror

end

/-! ## Two keys side by side (45_interleaver R159) -/

/-- A write elsewhere keeps an array's number. -/
theorem Confined.limbValue {m m' : Memory} {a b n k : Nat} (h : Confined m m' b k)
    (hapart : Safety.disjointWords a n b k) : Safety.limbValue m' a n = Safety.limbValue m a n :=
  (limbValue_eq_iff ..).2 fun i hi =>
    h.readWord fun hmeet => words_apart hapart i (a + i - b) hi (by omega) (by omega)

/-- `s` makes a key, `s'` makes one of the same shape beside it, and `u` names the two for COMPARE. -/
structure KeysSideBySide (s s' u : State) : Prop where
  firstDefined : interleaveDefined s
  secondDefined : interleaveDefined s'
  secondMem : s'.mem = (afterInterleave s).mem
  lenN : s'.lenN = s.lenN
  auxN : s'.auxN = s.auxN
  apart : Safety.disjointWords s.dbN (ceilWords (s.lenN * s.auxN)) s'.dbN (ceilWords (s.lenN * s.auxN))
  mem : u.mem = (afterInterleave s').mem
  secondAw : s'.aw = s.aw
  aw : u.aw = s'.aw
  sbN : u.sbN = s.dbN
  swN : u.swN = ceilWords (s.lenN * s.auxN)
  dbN : u.dbN = s'.dbN
  dwN : u.dwN = ceilWords (s'.lenN * s'.auxN)

namespace KeysSideBySide

variable {s s' u : State}

theorem sameShape (h : KeysSideBySide s s' u) : ceilWords (s'.lenN * s'.auxN) = ceilWords (s.lenN * s.auxN) := by
  rw [h.lenN, h.auxN]

theorem defined (h : KeysSideBySide s s' u) : compareDefined u := by
  obtain ⟨-, -, hfits, -⟩ := h.firstDefined
  obtain ⟨-, -, hfits', -⟩ := h.secondDefined
  unfold Safety.compareDefined Safety.inMemory
  rw [h.sbN, h.swN, h.dbN, h.dwN, h.aw]
  exact ⟨h.sameShape.symm, h.secondAw ▸ hfits, hfits'⟩

/-- The first key is still there after the second is made. -/
theorem limbValue_first (h : KeysSideBySide s s' u) : limbValue u.mem u.sbN u.swN = s.zKey := by
  have hframe := confined_afterInterleave h.secondDefined
  rw [h.sameShape] at hframe
  rw [h.mem, h.sbN, h.swN, hframe.limbValue h.apart, h.secondMem]
  exact limbValue_afterInterleave h.firstDefined

theorem limbValue_second (h : KeysSideBySide s s' u) : limbValue u.mem u.dbN u.swN = s'.zKey := by
  rw [h.mem, h.dbN, h.swN, ← h.sameShape]
  exact limbValue_afterInterleave h.secondDefined

theorem r0_eq (h : KeysSideBySide s s' u) : (afterCompare u).r0 = sext64 (natOrder s.zKey s'.zKey) := by
  rw [afterCompare_r0, h.limbValue_first, h.limbValue_second]

end KeysSideBySide

/-! ## Statements -/

/-- Settles O47: the new array's bits are the bits of `Z`, and bit `e` of `Z` is emission `e`. -/
theorem interleaveMatchesTheClosedForm : Obligations.InterleaveMatchesTheClosedForm := by
  intro s hdef
  have hrun := execInterleave_of_defined hdef
  obtain ⟨hholds, -⟩ := padding_of_ceilWords (s.lenN * s.auxN)
  refine ⟨_, hrun, ?_⟩
  rw [afterInterleave_r0_toNat hdef]
  refine ⟨rfl, fun i j e hi hj he => ?emission, limbValue_afterInterleave hdef,
    fun _ => toNat_readWord_afterInterleave hdef, (confined_afterInterleave hdef).kept, exec_shellKept hrun,
    statusCompleted_of_setErr rfl⟩
  case emission =>
    subst he
    have hlt := emission_lt hi hj
    have hinside := hlt.trans_le hholds
    rw [cursorBit_afterInterleave hdef hinside, getLsbD_afterInterleave hdef hinside,
      s.testBit_zKey_emission hi hj]
    exact ⟨hlt, rfl, rfl⟩

/-- Settles O48: `Z` has no bit from `B K` up, and the cursor positions before the emissions hold those bits. -/
theorem interleavePaddingIsZero : Obligations.InterleavePaddingIsZero := by
  intro s hdef
  obtain ⟨-, hpadding⟩ := padding_of_ceilWords (s.lenN * s.auxN)
  refine ⟨_, execInterleave_of_defined hdef, ?_⟩
  rw [afterInterleave_r0_toNat hdef, limbValue_afterInterleave hdef]
  refine ⟨s.zKey_lt, hpadding, fun _ => cursorBit_afterInterleave_padding hdef, fun _ k hk hhigh => ?topBits⟩
  case topBits =>
    have hcursor := cursorBit_afterInterleave_padding hdef (c := 63 - k) (by omega)
    unfold Safety.cursorBit at hcursor
    rwa [show (63 - k) / 64 = 0 by omega, show 63 - (63 - k) % 64 = k by omega, Nat.add_zero] at hcursor

/-- Settles O49: the second key is made beside the first, so COMPARE finds both `Z` in memory; their order is that of
the sequences. -/
theorem interleavedKeysCompareInZOrder : Obligations.InterleavedKeysCompareInZOrder := by
  intro s t s' t' u hrun hmem haw hlen haux hapart hrun' humem huaw husb husw hudb hudw
  obtain ⟨-, hawFirst, -, -⟩ := exec_shellKept hrun
  obtain ⟨-, hawSecond, -, -⟩ := exec_shellKept hrun'
  obtain ⟨hdef, rfl⟩ := execInterleave_next hrun
  obtain ⟨hdef', rfl⟩ := execInterleave_next hrun'
  have hlenN : s'.lenN = s.lenN := congrArg BitVec.toNat hlen
  have hauxN : s'.auxN = s.auxN := congrArg BitVec.toNat haux
  have hr0 := afterInterleave_r0_toNat hdef
  have hkeys : KeysSideBySide s s' u :=
    { firstDefined := hdef, secondDefined := hdef', secondMem := hmem, lenN := hlenN, auxN := hauxN, mem := humem
      apart := hr0 ▸ hapart
      secondAw := haw.trans hawFirst
      aw := huaw.trans hawSecond
      sbN := congrArg BitVec.toNat husb
      swN := (congrArg BitVec.toNat husw).trans hr0
      dbN := congrArg BitVec.toNat hudb
      dwN := (congrArg BitVec.toNat hudw).trans (afterInterleave_r0_toNat hdef') }
  obtain ⟨hequal, hgreater, hless⟩ := sext64_natOrder s.zKey s'.zKey
  have hsequences := lexOrder_zSequence s.mem s'.mem s.sbN s'.sbN s.lenN s.auxN s.lenN
  have hkey' : s'.zKey = zValue s'.mem s'.sbN s.lenN s.auxN s.lenN := by rw [State.zKey, hlenN, hauxN]
  refine ⟨_, execCompare_of_defined hkeys.defined, ?_⟩
  rw [hsequences, ← hkey', hkeys.r0_eq]
  exact ⟨hless, hequal, hgreater, rfl⟩

end Sys2Proof.Machine
end

section
/-! The host port: what a step does for each transaction, register by register and word by word (46_host_port). -/

namespace Sys2Proof.Machine

open Safety (bytesKept)

/-! ## Registers by number (10_state R25, R26) -/

/-- Register numbers 0 to 7 read the operand registers. -/
theorem State.readReg?_operand (s : State) {r : Nat} (hr : r ≤ 7) : s.readReg? r = s.regs.read? r := by
  interval_cases r <;> rfl

/-- `STATUS` is read with its reserved bits 0. -/
theorem getLsbD_statusRead (st : Word) (k : Nat) : (statusRead st).getLsbD k = (decide (k ≤ 4) && st.getLsbD k) := by
  have hmask : (decide (k < 4) || decide (k = 4)) = decide (k ≤ 4) := by
    rw [← Bool.decide_or]
    exact decide_eq_decide.2 (Nat.le_iff_lt_or_eq.symm)
  rw [statusRead, BitVec.getLsbD_and, BitVec.getLsbD_or, getLsbD_errMask, getLsbD_stickyMask, hmask, Bool.and_comm]

/-! ## Steps, one lemma per transaction (46_host_port R170 to R175) -/

theorem step_idle {s : State} (hp : s.pending = []) : step s = .next s := by
  rw [step, serveNext, hp]

/-- A step that serves ISSUE of a word that decodes. -/
theorem step_issue_legal {s : State} {w : CommandWord} {i : Instr} {rest : List Event}
    (hp : s.pending = .issue w :: rest) (hw : decode w = .ok i) :
    step s = exec i { s with
      pending := rest
      reply := none } :=
  step_issue_encode ((decode_eq_ok_iff w i).1 hw ▸ hp)

/-- WR to `CMD` is ISSUE of the low 32 bits (46_host_port R171). -/
theorem step_wr_cmd {s : State} {v : Word} {rest : List Event} (hp : s.pending = .wr 10 v :: rest) :
    step s = step { s with pending := .issue (v.setWidth 32) :: rest } :=
  step_cons hp

theorem step_wr_r0 {s : State} {v : Word} {rest : List Event} (hp : s.pending = .wr 8 v :: rest) :
    step s = .next { s with
      pending := rest
      reply := none } := step_cons hp

theorem step_wr_status {s : State} {v : Word} {rest : List Event} (hp : s.pending = .wr 9 v :: rest) :
    step s = .next { s with
      status := hostStatusWrite s.status v
      pending := rest
      reply := none } := step_cons hp

theorem step_rd {s : State} {r : Nat} {v : Word} {rest : List Event} (hp : s.pending = .rd r :: rest)
    (hv : s.readReg? r = some v) :
    step s = .next { s with
      pending := rest
      reply := some v } := by
  have hv' : ((s.setPending rest).setReply none).readReg? r = some v := hv
  rw [step_cons hp, serve, hostRead, hv']
  rfl

theorem step_wrw {s : State} {a : Nat} {v : Word} {rest : List Event} (hp : s.pending = .wrw a v :: rest)
    (ha : a < 2 ^ s.aw.val) :
    step s = .next { s with
      mem := s.mem.writeWord a v
      pending := rest
      reply := none } := (step_cons hp).trans (if_pos ha)

theorem step_rdw {s : State} {a : Nat} {rest : List Event} (hp : s.pending = .rdw a :: rest)
    (ha : a < 2 ^ s.aw.val) :
    step s = .next { s with
      pending := rest
      reply := some (s.mem.readWord a) } := (step_cons hp).trans (if_pos ha)

/-! ## Statements -/

/-- Settles O6: with no event to serve the step answers the state it was given. -/
theorem idleCoreChangesNothing : Obligations.IdleCoreChangesNothing := fun _ => step_idle

/-- Settles O5: WR to `CMD` steps as the ISSUE of its low 32 bits. -/
theorem stepRunsTheIssuedCommand : Obligations.StepRunsTheIssuedCommand :=
  ⟨fun _ _ _ _ => step_issue_legal, fun _ _ _ _ hp hw => (step_wr_cmd hp).trans (step_issue_legal rfl hw)⟩

/-- Settles O10: the word written reads back, and no byte outside it is written. -/
theorem hostWordTransactions : Obligations.HostWordTransactions := by
  refine ⟨fun s a v rest hp ha => ?write, fun s a rest => step_rdw⟩
  case write =>
    have hkept : bytesKept s.mem (s.mem.writeWord a v) a 1 :=
      (confined_writeWord s.mem v (Nat.le_refl a) (Nat.lt_succ_self a)).kept
    exact ⟨_, step_wrw hp ha, rfl, Memory.readWord_writeWord_same _ _ _, hkept⟩

/-- Settles O9: the step answers what the register number reads. -/
theorem hostReadReturnsTheRegister : Obligations.HostReadReturnsTheRegister := by
  intro s r rest hp hr
  obtain ⟨v, hv⟩ := Option.isSome_iff_exists.1 ((readReg?_isSome_iff s r).2 hr)
  have hvalue : ∀ {n w}, s.readReg? n = some w → r = n → v = w := fun hw hn =>
    Option.some.inj (hv.symm.trans (hn ▸ hw))
  have hstatus : r = 9 → ∀ k, v.getLsbD k = (decide (k ≤ 4) && s.status.getLsbD k) := fun hn k => by
    rw [hvalue (w := statusRead s.status) rfl hn, getLsbD_statusRead]
  exact ⟨v, step_rd hp hv, hvalue rfl, hvalue rfl, hvalue rfl, hvalue rfl, hvalue rfl, hvalue rfl, hvalue rfl,
    hvalue rfl, hvalue rfl, hstatus, hvalue rfl⟩

/-- Settles O8: a written operand register reads as written and the others as before; `R0`, `STATUS` and `CMD` each have
their own step. -/
theorem hostWriteActsByRegisterNumber : Obligations.HostWriteActsByRegisterNumber := by
  intro s r v rest hp
  refine ⟨fun hr => ?operand, fun hr => ?r0, fun hr => ?status, fun hr => ?cmd⟩
  case operand =>
    obtain ⟨regs, hwrite, -⟩ := hostWrite_operand (v := v) (s := s) hr
    refine ⟨_, step_operand hp hwrite, rfl, fun q hq => ?_⟩
    rw [State.readReg?_operand _ hq, State.readReg?_operand _ hq]
    exact OperandRegs.read?_write? _ _ _ _ _ hwrite
  case r0 => exact step_wr_r0 (hr ▸ hp)
  case status => exact step_wr_status (hr ▸ hp)
  case cmd => exact step_wr_cmd (hr ▸ hp)

end Sys2Proof.Machine
end

section
/-! Errors and faults: when a command raises InvalidRangeLength, what taking an exception changes, and that a command
faults exactly when it has a false precondition (60_exceptions). -/

namespace Sys2Proof.Machine

open Safety (Defined statusCompleted)

/-! ## InvalidRangeLength (60_exceptions R186) -/

/-- `LEN > 64` is answered with the error before the plan's preconditions are looked at. -/
theorem exec_of_overlong {i : Instr} {s : State} (hlong : overlong i s = true) :
    exec i s = .next (s.raise .invalidRangeLength) := by
  rw [exec_eq_plan, if_pos hlong]

/-- Any other command that answers a state completes. -/
theorem statusCompleted_of_not_overlong {i : Instr} {s t : State} (hshort : overlong i s = false)
    (h : exec i s = .next t) : statusCompleted s t := by
  cases exec_answer h with
  | raised instr long _ =>
    have hlong : overlong i s = true := by
      rcases instr with rfl | rfl <;> exact decide_eq_true long
    exact absurd hlong (Bool.eq_false_iff.1 hshort)
  | completed _ _ _ _ _ _ _ eq => exact statusCompleted_of_setErr (congrArg State.status eq)

/-- Only GET and OVERWRITE check `LEN`. -/
theorem overlong_eq_false {i : Instr} (hget : i ≠ .get) (hoverwrite : i ≠ .overwrite) (s : State) :
    overlong i s = false := by
  cases i with
  | get => exact absurd rfl hget
  | overwrite => exact absurd rfl hoverwrite
  | create | compare | copy | insert | remove | interleave => rfl

/-- Settles O15: `exec_of_overlong` for the error; every answer to a command that is not too long is a completion. -/
theorem rangeLengthErrorComesFirst : Obligations.RangeLengthErrorComesFirst := by
  refine ⟨fun s hlong => ⟨?get, ?overwrite⟩, fun s t hlen h => ?short, fun i s t hget hoverwrite h => ?others⟩
  case get => exact ⟨_, exec_of_overlong (decide_eq_true hlong), statusRaised_raise s _, rfl⟩
  case overwrite => exact ⟨_, exec_of_overlong (decide_eq_true hlong), statusRaised_raise s _, rfl⟩
  case short =>
    have hshort : decide (64 < s.lenN) = false := decide_eq_false (Nat.not_lt.2 hlen)
    rcases h with h | h
    · exact statusCompleted_of_not_overlong (i := .get) hshort h
    · exact statusCompleted_of_not_overlong (i := .overwrite) hshort h
  case others => exact statusCompleted_of_not_overlong (overlong_eq_false hget hoverwrite s) h

/-! ## Taking an exception (60_exceptions R193) -/

/-- A step that issues a command word, whichever way the host does so (46_host_port R171, R175). -/
theorem step_issues {s : State} {e : Event} {rest : List Event} {w : CommandWord} (hp : s.pending = e :: rest)
    (he : e = .issue w ∨ ∃ v : Word, e = .wr 10 v ∧ v.setWidth 32 = w) :
    step s = issue w ((s.setPending rest).setReply none) := by
  rw [step_cons hp]
  rcases he with rfl | ⟨v, rfl, rfl⟩ <;> rfl

/-- A step that takes an exception records the code, sets `ESTICKY`, and keeps all else but the event it served. -/
theorem step_raises {s : State} {rest : List Event} {c : Condition}
    (h : step s = .next (((s.setPending rest).setReply none).raise c)) :
    ∃ t, step s = .next t ∧ t.err = conditionCode c ∧ t.esticky = true ∧ t.r0 = s.r0 ∧ t.regs = s.regs ∧
      t.mem = s.mem ∧ t.pending = rest :=
  ⟨_, h, State.raise_err _ c, State.raise_esticky _ c, rfl, rfl, rfl, rfl⟩

/-- Settles O16: both conditions are taken by `State.raise`, on the state whose first event is served. -/
theorem errorsChangeStatusOnly : Obligations.ErrorsChangeStatusOnly := by
  intro s e rest w hp he
  have hstep := step_issues hp he
  refine ⟨fun hillegal => ?illegal, fun hw hlong => ?long⟩
  case illegal => exact step_raises (hstep.trans (issue_illegal hillegal _))
  case long =>
    have hlong' : decide (64 < ((s.setPending rest).setReply none).lenN) = true := decide_eq_true hlong
    refine step_raises (c := .invalidRangeLength) (hstep.trans ?_)
    rcases hw with hw | hw <;> exact (issue_legal hw _).trans (exec_of_overlong hlong')

/-! ## Faults (60_exceptions R188, R191) -/

/-- A meaning that answers one state when its preconditions hold, and otherwise faults. -/
theorem answers_or_faults {P : Prop} {r : Result} {t : State}
    (h : (P ∧ r = .next t) ∨ (¬P ∧ ∃ f, r = .fault f)) :
    (P ∧ ∃ t, r = .next t) ∨ (¬P ∧ ∃ f, r = .fault f) :=
  h.imp_left (And.imp_right (Exists.intro t))

/-- A meaning that also answers when `LEN > 64`, before its preconditions matter. -/
theorem answers_or_faults_of_len {P : Prop} {len : Nat} {r : Result} {t u : State}
    (h : (64 < len ∧ r = .next u) ∨ (len ≤ 64 ∧ P ∧ r = .next t) ∨ (len ≤ 64 ∧ ¬P ∧ ∃ f, r = .fault f)) :
    ((len > 64 ∨ P) ∧ ∃ t, r = .next t) ∨ (¬(len > 64 ∨ P) ∧ ∃ f, r = .fault f) := by
  rcases h with ⟨hlong, hr⟩ | ⟨-, hP, hr⟩ | ⟨hlen, hP, hr⟩
  · exact .inl ⟨.inl hlong, u, hr⟩
  · exact .inl ⟨.inr hP, t, hr⟩
  · exact .inr ⟨not_or.2 ⟨Nat.not_lt.2 hlen, hP⟩, hr⟩

/-- Settles O23: command by command, what its meaning does in each case. -/
theorem faultsExactlyWhenUndefined : Obligations.FaultsExactlyWhenUndefined := by
  intro i s
  cases i with
  | create => exact answers_or_faults (execCreate_cases s)
  | compare => exact answers_or_faults (execCompare_cases s)
  | get => exact answers_or_faults_of_len (execGet_cases s)
  | overwrite => exact answers_or_faults_of_len (execOverwrite_cases s)
  | copy => exact answers_or_faults (execCopy_cases s)
  | insert => exact answers_or_faults (execInsert_cases s)
  | remove => exact answers_or_faults (execRemove_cases s)
  | interleave => exact answers_or_faults (execInterleave_cases s)

/-- A command that faults has a false precondition. -/
theorem not_defined_of_exec_fault {i : Instr} {s : State} {f : Fault} (h : exec i s = .fault f) : ¬Defined i s := by
  rcases faultsExactlyWhenUndefined i s with ⟨-, t, ht⟩ | ⟨hundef, -⟩
  · cases h.symm.trans ht
  · exact hundef

/-- Preconditions read neither what is pending nor the last answer. -/
theorem defined_of_taken (i : Instr) (s : State) (rest : List Event) (v : Option Word) :
    Defined i ((s.setPending rest).setReply v) ↔ Defined i s := by
  cases i <;> rfl

/-- Issuing a word faults only in its command. -/
theorem issue_fault {w : CommandWord} {s : State} {f : Fault} (h : issue w s = .fault f) :
    ∃ i, (decode w).toOption = some i ∧ exec i s = .fault f := by
  unfold issue at h
  split at h
  · cases h
  · rename_i i hw
    exact ⟨i, by rw [hw]; rfl, h⟩

/-- WR faults only as WR to `CMD`, in the command it issues. -/
theorem hostWrite_fault {r : Nat} {v : Word} {s : State} {f : Fault} (h : hostWrite r v s = .fault f) :
    ∃ i, Safety.commandOf (.wr r v) = some i ∧ exec i s = .fault f := by
  rcases Nat.lt_or_ge 7 r with hlow | hoperand
  · rcases Nat.lt_or_ge 10 r with hnone | hhigh
    · cases (hostWrite_none hnone).symm.trans h
    · interval_cases r
      · cases h
      · cases h
      · exact issue_fault h
  · obtain ⟨regs, -, hnext⟩ := hostWrite_operand (v := v) (s := s) hoperand
    cases hnext.symm.trans h

/-- Serving an event faults only in the command it issues: the other events answer a state or are refused. -/
theorem serve_fault {e : Event} {s : State} {f : Fault} (h : serve e s = .fault f) :
    ∃ i, Safety.commandOf e = some i ∧ exec i s = .fault f := by
  cases e with
  | wr r v => exact hostWrite_fault h
  | issue w => exact issue_fault h
  | rd r => simp only [serve, hostRead] at h; split at h <;> cases h
  | wrw a v => simp only [serve, hostWriteWord] at h; split at h <;> cases h
  | rdw a => simp only [serve, hostReadWord] at h; split at h <;> cases h
  | reset contents => simp only [serve, platformReset] at h; split at h <;> cases h

/-- Settles O24: an idle step answers, and serving an event faults only in a command with a false precondition. -/
theorem faultsComeOnlyFromUndefinedCommands : Obligations.FaultsComeOnlyFromUndefinedCommands := by
  intro s f h
  cases hp : s.pending with
  | nil => cases (step_idle hp).symm.trans h
  | cons e rest =>
    obtain ⟨i, hcommand, hfault⟩ := serve_fault ((step_cons hp).symm.trans h)
    exact ⟨e, rest, i, rfl, hcommand, fun hdef =>
      not_defined_of_exec_fault hfault ((defined_of_taken i s rest none).2 hdef)⟩

end Sys2Proof.Machine
end
